-- ==== Sys2Proof/Word.lean ====
section
/-! DEFINITION. The words of the block: bytes, 16-bit fields, line levels and buffer offsets (00_scope.md R10, 20_memory.md R41). -/

namespace Sys2Proof

/-- A byte, bits 7 (most significant) down to 0 (00_scope.md R10). -/
abbrev Byte := BitVec 8

/-- A 16-bit field of a payload or of a response (20_memory.md R45). -/
abbrev Half := BitVec 16

/-- The value of one line or of one bit on it: `false` is 0, `true` is 1 (00_scope.md R12). -/
abbrev Bit := Bool

/-- An offset into BUF, 0 to 15; no other offset exists (20_memory.md R41). -/
abbrev Offset := Fin 16

end Sys2Proof
end

