-- ==== Sys2Proof/Config.lean ====
section
/-! DEFINITION. What an implementation of the block fixes (00_scope.md R9, the OPEN parameters that choose behaviour) and the free values the device supplies (R7, R13). -/

namespace Sys2Proof

/-- FM_ANTCAP_POLICY: what an FM antenna capacitance above 0xFF does (42_commands.md R107, D16). -/
inductive AntcapPolicy where
  | refuse
  | truncate
  deriving DecidableEq, Repr

/-- SEEK_FM_LAYOUT: the two layouts of FM_SEEK_START (42_commands.md R110, D18). -/
inductive SeekFmLayout where
  | antcap
  | arg1Only
  deriving DecidableEq, Repr

/-- The OPEN parameters of R9 on which behaviour depends: arguments of the model. They stand in
`State.params` because the form of `exec` is fixed; no step writes them (log 7). -/
structure Params where
  amFunc : BitVec 4
  fmAntcapPolicy : AntcapPolicy
  seekFmLayout : SeekFmLayout
  deriving DecidableEq, Repr

/-- The values this spec takes by default (92_eei_decisions.md, open parameters).
PRESUMED: AM_FUNC = 0x1, which the spec itself takes from general knowledge (D10; log 7). -/
def Params.default : Params :=
  { amFunc := 0x1, fmAntcapPolicy := .refuse, seekFmLayout := .antcap }

/-- The domain of AM_FUNC: a 4-bit code other than 0x0 (FM) and 0xF (QLID) (92_eei_decisions.md). -/
def Params.wf (p : Params) : Bool :=
  p.amFunc != 0x0 && p.amFunc != 0xF

/-- `DeviceBit()` of R13: the n-th bit the device supplies, a free draw under no law (R7, D8).
It has no body, so nothing can be proved of its values (log 5). -/
opaque Config.deviceBit : Nat → Bit

end Sys2Proof
end

