-- ==== Sys2Proof/Machine/Operands.lean ====
section
/-! DEFINITION. The operand forms: widths (30_encoding.md R76), how operands become payload bytes (R66, 42_commands.md R107, R109), how response bytes become fields (00_scope.md R10, 20_memory.md R45), zero padding (42_commands.md R98), and the parameters with fixed values (00_scope.md R9). -/

namespace Sys2Proof.Machine

/-! ### Widths of caller operands (R76) -/

/-- A u8 operand fits. -/
def fitsU8 (n : Nat) : Bool := decide (n < 256)

/-- A u16 operand fits. -/
def fitsU16 (n : Nat) : Bool := decide (n < 65536)

/-! ### Operands to payload bytes (R66) -/

/-- A u8 operand, staged unchanged. -/
def toU8 (n : Nat) : Byte := BitVec.ofNat 8 n

/-- A u16 operand as the 16-bit field it is. -/
def toU16 (n : Nat) : Half := BitVec.ofNat 16 n

/-- `H(w) = w[15:8]` (R65). -/
def hi (w : Half) : Byte := w.extractLsb' 8 8

/-- `L(w) = w[7:0]` (R65). -/
def lo (w : Half) : Byte := w.extractLsb' 0 8

/-- `A8(antcap) = antcap[7:0]` wherever the command is not refused (42_commands.md R107). -/
def a8 (antcap : Nat) : Byte := lo (toU16 antcap)

/-- Whether an FM tune or seek may carry this antcap in its one byte (42_commands.md R102, R107). -/
def antcapAllowed (p : Params) (antcap : Nat) : Bool :=
  decide (p.fmAntcapPolicy = .truncate) || decide (antcap ≤ 0xFF)

/-- The setup byte of AM Tune Freq, `setup & 0x01` (42_commands.md R109, D17). -/
def amSetup (setup : Nat) : Byte := toU8 setup &&& 0x01

/-- The payload of N staged bytes: offsets N..7 are 0x00 (42_commands.md R98, 30_encoding.md R64). -/
def padded (staged : List Byte) : List Byte :=
  staged ++ List.replicate (8 - staged.length) 0x00

/-! ### Response bytes to fields -/

/-- A big-endian pair read back, `high ++ low` (20_memory.md R45). -/
def be16 (high low : Byte) : Half := high ++ low

/-- `zext_16` of a byte (R10). -/
def zext16 (b : Byte) : Half := b.setWidth 16

/-- `sext_16` of a byte (R10). -/
def sext16 (b : Byte) : Half := b.signExtend 16

/-! ### Parameters with fixed values (R9) -/

/-- CTRL_WRITE (30_encoding.md R59). -/
def ctrlWrite : Byte := 0x48

/-- CTRL_SHORT_READ (30_encoding.md R59). -/
def ctrlShortRead : Byte := 0x80

/-- CTRL_LONG_READ (30_encoding.md R59). -/
def ctrlLongRead : Byte := 0xC0

/-- SETTLE_BASE, in microseconds (42_commands.md R99). -/
def settleBase : Nat := 300

/-- SETTLE_POWER_UP, in microseconds (R99). -/
def settlePowerUp : Nat := 300000

/-- SETTLE_FM_TUNE, in microseconds (R99). -/
def settleFmTune : Nat := 120000

/-- SETTLE_AM_TUNE, in microseconds (R99). -/
def settleAmTune : Nat := 200000

/-- SETTLE_SET_PROPERTY, in microseconds (R99; 90_conflicts.md C1). -/
def settleSetProperty : Nat := 10000

/-- FM_FUNC (42_commands.md R101). -/
def fmFunc : BitVec 4 := 0x0

/-- QLID_FUNC (42_commands.md R101). -/
def qlidFunc : BitVec 4 := 0xF

/-- `setup[3:0]`, the function code Power Up records (42_commands.md R101). -/
def funcOf (setup : Nat) : BitVec 4 := (toU8 setup).extractLsb' 0 4

end Sys2Proof.Machine
end

