-- ==== Sys2Proof/Syntax.lean ====
section
/-! DEFINITION. The instructions of the block: one constructor per row of spec/opcode_table.json (30_encoding.md R57). -/

namespace Sys2Proof

/-- One instruction. The operands of a command are the numbers the caller gives, of any size: whether
they fit the widths of 30_encoding.md R76 is checked in admission (42_commands.md R102), because a
number that does not fit is refused, not cut down (00_scope.md R15). -/
inductive Instr where
  -- the 21 command variants (42_commands.md)
  | powerUp (setup audioOut : Nat)
  | getRev
  | powerDown
  | setProperty (prop value : Nat)
  | getProperty (prop : Nat)
  | getIntStatus
  | fmTuneFreq (setup freq antcap : Nat)
  | amTuneFreq (setup freq antcap : Nat)
  | fmSeekStart (arg1 antcap : Nat)
  | amSeekStart (arg1 antcap : Nat)
  | fmTuneStatus (arg1 : Nat)
  | amTuneStatus (arg1 : Nat)
  | fmRsqStatus (arg1 : Nat)
  | amRsqStatus (arg1 : Nat)
  | fmRdsStatus (arg1 : Nat)
  | fmAgcStatus
  | amAgcStatus
  | fmAgcOverride (rfAgcDis lnaGain : Nat)
  | amAgcOverride (rfAgcDis lnaGain : Nat)
  | gpioCtl (arg1 : Nat)
  | gpioSet (arg1 : Nat)
  -- the three transactions (41_framer.md)
  | writeTxn
  | shortReadTxn
  | longReadTxn
  -- the two transport primitives (40_transport.md)
  | sendByte (b : Byte)
  | recvByte
  -- the thirteen accessors (43_response_view.md)
  | statusByte
  | cts
  | err
  | rsqInt
  | rdsInt
  | stcInt
  | frequency
  | rssi
  | snr
  | antcap
  | fmStereo
  | stereoBlend
  | freqOffset
  deriving DecidableEq, Repr

end Sys2Proof
end

