-- ==== Sys2Proof/WellFormed.lean ====
section
/-! DEFINITION. When an instruction is well formed: every operand fits its width (30_encoding.md R76). -/

namespace Sys2Proof

open Machine

/-- Every operand fits the width of 30_encoding.md R76. A command that is not well formed is refused
when it runs (00_scope.md R15, 60_exceptions.md R151). -/
def Instr.wellFormed : Instr → Bool
  | .powerUp setup audioOut => fitsU8 setup && fitsU8 audioOut
  | .getRev => true
  | .powerDown => true
  | .setProperty prop value => fitsU16 prop && fitsU16 value
  | .getProperty prop => fitsU16 prop
  | .getIntStatus => true
  | .fmTuneFreq setup freq cap => fitsU8 setup && fitsU16 freq && fitsU16 cap
  | .amTuneFreq setup freq cap => fitsU8 setup && fitsU16 freq && fitsU16 cap
  | .fmSeekStart arg1 cap => fitsU8 arg1 && fitsU16 cap
  | .amSeekStart arg1 cap => fitsU8 arg1 && fitsU16 cap
  | .fmTuneStatus arg1 => fitsU8 arg1
  | .amTuneStatus arg1 => fitsU8 arg1
  | .fmRsqStatus arg1 => fitsU8 arg1
  | .amRsqStatus arg1 => fitsU8 arg1
  | .fmRdsStatus arg1 => fitsU8 arg1
  | .fmAgcStatus => true
  | .amAgcStatus => true
  | .fmAgcOverride rfAgcDis lnaGain => fitsU8 rfAgcDis && fitsU8 lnaGain
  | .amAgcOverride rfAgcDis lnaGain => fitsU8 rfAgcDis && fitsU8 lnaGain
  | .gpioCtl arg1 => fitsU8 arg1
  | .gpioSet arg1 => fitsU8 arg1
  | .writeTxn => true
  | .shortReadTxn => true
  | .longReadTxn => true
  | .sendByte _ => true
  | .recvByte => true
  | .statusByte => true
  | .cts => true
  | .err => true
  | .rsqInt => true
  | .rdsInt => true
  | .stcInt => true
  | .frequency => true
  | .rssi => true
  | .snr => true
  | .antcap => true
  | .fmStereo => true
  | .stereoBlend => true
  | .freqOffset => true

end Sys2Proof
end

