-- ==== Sys2Proof/Decode.lean ====
section
/-! DEFINITION. The encodings of 30_encoding.md R58 to R67, R70 and R72: PAYLOAD (8 bytes) and CTRL (1 byte); the decoder, total on any bytes and rejecting by name, and after it the encoder. Accessors and transport primitives have no encoding (R58, R74, 43_response_view.md R145). -/

namespace Sys2Proof

open Machine

/-- Why bytes are no encoding of an instruction. -/
inductive DecodeError where
  /-- Neither one control byte nor an 8-byte payload (R58). -/
  | badLength
  /-- Byte 0 of a payload is none of the 21 opcodes of R65 (R70). -/
  | unknownOpcode
  /-- A control byte other than 0x48, 0x80 and 0xC0 (R59, R70). -/
  | unknownControl
  /-- A byte that the row fixes inside 1..N-1 holds another value (R65). -/
  | fixedField
  /-- A padding byte, N..7, is not 0x00 (R64). -/
  | padding
  deriving DecidableEq, Repr

/-- One row of the payload table R65, read back: its opcode, its staged length N, whether the bytes
the row fixes inside 1..N-1 hold their values, and the instruction with its operands. -/
structure DecodeRow where
  opcode : Byte
  staged : Nat
  fixedOk : Bool
  instr : Instr
  deriving DecidableEq, Repr

/-- The rows of R65 for payload bytes b1 to b5 (no row has an operand in b6 or b7). -/
def payloadRows (p : Params) (b1 b2 b3 b4 b5 : Byte) : List DecodeRow :=
  let w23 := (be16 b2 b3).toNat
  let w45 := (be16 b4 b5).toNat
  let zeros23 := b2 == 0 && b3 == 0
  [ ⟨0x01, 3, true, .powerUp b1.toNat b2.toNat⟩,
    ⟨0x10, 1, true, .getRev⟩,
    ⟨0x11, 1, true, .powerDown⟩,
    ⟨0x12, 6, b1 == 0, .setProperty w23 w45⟩,
    ⟨0x13, 4, b1 == 0, .getProperty w23⟩,
    ⟨0x14, 1, true, .getIntStatus⟩,
    ⟨0x20, 5, true, .fmTuneFreq b1.toNat w23 b4.toNat⟩,
    ⟨0x40, 6, b1 == 0 || b1 == 1, .amTuneFreq b1.toNat w23 w45⟩,
    (match p.seekFmLayout with
      | .antcap => ⟨0x21, 5, zeros23, .fmSeekStart b1.toNat b4.toNat⟩
      | .arg1Only => ⟨0x21, 2, true, .fmSeekStart b1.toNat 0⟩),
    ⟨0x41, 6, zeros23, .amSeekStart b1.toNat w45⟩ ] ++
  [ ⟨0x22, 2, true, .fmTuneStatus b1.toNat⟩,
    ⟨0x42, 2, true, .amTuneStatus b1.toNat⟩,
    ⟨0x23, 2, true, .fmRsqStatus b1.toNat⟩,
    ⟨0x43, 2, true, .amRsqStatus b1.toNat⟩,
    ⟨0x24, 2, true, .fmRdsStatus b1.toNat⟩,
    ⟨0x27, 1, true, .fmAgcStatus⟩,
    ⟨0x47, 1, true, .amAgcStatus⟩,
    ⟨0x28, 3, true, .fmAgcOverride b1.toNat b2.toNat⟩,
    ⟨0x48, 3, true, .amAgcOverride b1.toNat b2.toNat⟩,
    ⟨0x80, 2, true, .gpioCtl b1.toNat⟩,
    ⟨0x81, 2, true, .gpioSet b1.toNat⟩ ]

/-- The command variant whose payload these bytes are (R64, R65).
DEDUCED: bytes that no operand values of a row give are no payload of it (log 15). -/
def decodePayload (p : Params) : List Byte → Except DecodeError Instr
  | [b0, b1, b2, b3, b4, b5, b6, b7] =>
    match (payloadRows p b1 b2 b3 b4 b5).find? (fun r => r.opcode == b0) with
    | none => .error .unknownOpcode
    | some r =>
      if !r.fixedOk then .error .fixedField
      else if ([b0, b1, b2, b3, b4, b5, b6, b7].drop r.staged).all (fun b => b == 0) then .ok r.instr
      else .error .padding
  | _ => .error .badLength

/-- The transaction a control byte selects, matched as a whole value (R59). -/
def decodeCtrl (c : Byte) : Except DecodeError Instr :=
  if c = ctrlWrite then .ok .writeTxn
  else if c = ctrlShortRead then .ok .shortReadTxn
  else if c = ctrlLongRead then .ok .longReadTxn
  else .error .unknownControl

/-- The decoder: one byte is a CTRL, eight are a PAYLOAD (R58). The formats never share a position
(00_scope.md R17); here their lengths tell 0x48 and 0x80 as a control byte from the opcodes. -/
def decode (p : Params) : List Byte → Except DecodeError Instr
  | [c] => decodeCtrl c
  | bytes => decodePayload p bytes

/-- The encoding of an instruction: the payload row of R65 padded to 8 bytes, the control byte of a
transaction, and no bytes for the instructions that have no encoding. -/
def encode (p : Params) : Instr → List Byte
  | .powerUp setup audioOut => padded [0x01, toU8 setup, toU8 audioOut]
  | .getRev => padded [0x10]
  | .powerDown => padded [0x11]
  | .setProperty prop value =>
    padded [0x12, 0x00, hi (toU16 prop), lo (toU16 prop), hi (toU16 value), lo (toU16 value)]
  | .getProperty prop => padded [0x13, 0x00, hi (toU16 prop), lo (toU16 prop)]
  | .getIntStatus => padded [0x14]
  | .fmTuneFreq setup freq antcap =>
    padded [0x20, toU8 setup, hi (toU16 freq), lo (toU16 freq), a8 antcap]
  | .amTuneFreq setup freq antcap =>
    padded [0x40, amSetup setup, hi (toU16 freq), lo (toU16 freq), hi (toU16 antcap), lo (toU16 antcap)]
  | .fmSeekStart arg1 antcap =>
    match p.seekFmLayout with
    | .antcap => padded [0x21, toU8 arg1, 0x00, 0x00, a8 antcap]
    | .arg1Only => padded [0x21, toU8 arg1]
  | .amSeekStart arg1 antcap =>
    padded [0x41, toU8 arg1, 0x00, 0x00, hi (toU16 antcap), lo (toU16 antcap)]
  | .fmTuneStatus arg1 => padded [0x22, toU8 arg1]
  | .amTuneStatus arg1 => padded [0x42, toU8 arg1]
  | .fmRsqStatus arg1 => padded [0x23, toU8 arg1]
  | .amRsqStatus arg1 => padded [0x43, toU8 arg1]
  | .fmRdsStatus arg1 => padded [0x24, toU8 arg1]
  | .fmAgcStatus => padded [0x27]
  | .amAgcStatus => padded [0x47]
  | .fmAgcOverride rfAgcDis lnaGain => padded [0x28, toU8 rfAgcDis, toU8 lnaGain]
  | .amAgcOverride rfAgcDis lnaGain => padded [0x48, toU8 rfAgcDis, toU8 lnaGain]
  | .gpioCtl arg1 => padded [0x80, toU8 arg1]
  | .gpioSet arg1 => padded [0x81, toU8 arg1]
  | .writeTxn => [ctrlWrite]
  | .shortReadTxn => [ctrlShortRead]
  | .longReadTxn => [ctrlLongRead]
  | .sendByte _ => []
  | .recvByte => []
  | .statusByte => []
  | .cts => []
  | .err => []
  | .rsqInt => []
  | .rdsInt => []
  | .stcInt => []
  | .frequency => []
  | .rssi => []
  | .snr => []
  | .antcap => []
  | .fmStereo => []
  | .stereoBlend => []
  | .freqOffset => []

/-- Whether the instruction is one of the 21 command variants (R57). -/
def Instr.isCommand : Instr → Bool
  | .powerUp _ _ => true
  | .getRev => true
  | .powerDown => true
  | .setProperty _ _ => true
  | .getProperty _ => true
  | .getIntStatus => true
  | .fmTuneFreq _ _ _ => true
  | .amTuneFreq _ _ _ => true
  | .fmSeekStart _ _ => true
  | .amSeekStart _ _ => true
  | .fmTuneStatus _ => true
  | .amTuneStatus _ => true
  | .fmRsqStatus _ => true
  | .amRsqStatus _ => true
  | .fmRdsStatus _ => true
  | .fmAgcStatus => true
  | .amAgcStatus => true
  | .fmAgcOverride _ _ => true
  | .amAgcOverride _ _ => true
  | .gpioCtl _ => true
  | .gpioSet _ => true
  | .writeTxn => false
  | .shortReadTxn => false
  | .longReadTxn => false
  | .sendByte _ => false
  | .recvByte => false
  | .statusByte => false
  | .cts => false
  | .err => false
  | .rsqInt => false
  | .rdsInt => false
  | .stcInt => false
  | .frequency => false
  | .rssi => false
  | .snr => false
  | .antcap => false
  | .fmStereo => false
  | .stereoBlend => false
  | .freqOffset => false

/-- Whether the instruction is one of the three transactions (R57). -/
def Instr.isTransaction (i : Instr) : Bool :=
  decide (i = .writeTxn) || decide (i = .shortReadTxn) || decide (i = .longReadTxn)

/-- Whether the instruction has an encoding: a payload or a control byte (R58). -/
def Instr.hasEncoding (i : Instr) : Bool := i.isCommand || i.isTransaction

/-- What the wire keeps of an instruction: the operands as decoding reads them back. Only three rows
lose anything: AM Tune Freq keeps one setup bit (42_commands.md R109), the FM antcap is one byte
(R107), and an FM seek of layout `arg1_only` sends no antcap (R110). -/
def Instr.onWire (p : Params) : Instr → Instr
  | .fmTuneFreq setup freq cap => .fmTuneFreq setup freq (cap % 256)
  | .amTuneFreq setup freq cap => .amTuneFreq (setup % 2) freq cap
  | .fmSeekStart arg1 cap =>
    match p.seekFmLayout with
    | .antcap => .fmSeekStart arg1 (cap % 256)
    | .arg1Only => .fmSeekStart arg1 0
  | i => i

/-- The bytes of the opcode table's word `w` of `nbits` bits, laid out as its row's format says: byte k
is bits 8k+7..8k, every bit above `nbits` is 0. A word that is a payload's opcode is an 8-byte PAYLOAD;
a word of one byte that is no opcode is a CTRL. 0x48 and 0x80 are both (00_scope.md R17): there the
PAYLOAD is taken, since only it is a command (log 3). A word that is a CTRL decodes to its transaction, which
no request can ask for (30_encoding.md R57). -/
def tableBytes (nbits w : Nat) : List Byte :=
  let v := w % 2 ^ nbits
  let payload := (List.range (max 8 ((nbits + 7) / 8))).map (fun k => BitVec.ofNat 8 (v >>> (8 * k)))
  match decodePayload Params.default payload with
  | .ok _ => payload
  | .error _ =>
    match decodeCtrl (BitVec.ofNat 8 v) with
    | .ok _ => if nbits ≤ 8 then [BitVec.ofNat 8 v] else payload
    | .error _ => payload

/-- The instruction the decoder reads from the opcode table's word (see `tableBytes`). -/
def decodeTableWord (nbits w : Nat) : Option Instr :=
  (decode Params.default (tableBytes nbits w)).toOption

end Sys2Proof
end

