-- ==== Sys2Proof/Machine/State.lean ====
section
/-! DEFINITION. The state of the block (10_state.md R20 to R30), the reasons a step can stop, and the state right after reset (70_reset_and_hazards.md R166). -/

namespace Sys2Proof.Machine

/-- The enable line in logical terms; its electrical level is open (R20, D3). -/
inductive Enable where
  | asserted
  | released
  deriving DecidableEq, Repr

/-- The direction of the data line at the initiator (R20). -/
inductive Direction where
  | output
  | input
  deriving DecidableEq, Repr

/-- LINES: what the initiator drives (R20). DIN is no storage: see `State.din`. -/
structure Lines where
  en : Enable
  clk : Bit
  ddir : Direction
  dout : Bit
  deriving DecidableEq, Repr

/-- PHASE of the sequencer (R21). -/
inductive Phase where
  | idle
  | stage
  | ctrl
  | payload
  | settle
  | resp
  deriving DecidableEq, Repr

/-- MODE, the Receiver-Mode State: 17 values (R23, 90_conflicts.md C4). -/
inductive Mode where
  | poweredDown
  | func (n : BitVec 4)
  deriving DecidableEq, Repr

/-- PWR, the ghost record of the device's power state (R24). -/
inductive Power where
  | down
  | up (m : Mode)
  deriving DecidableEq, Repr

/-- The events of TRACE (R27). A settle carries its microseconds. -/
inductive Event where
  | en (e : Enable)
  | clk (l : Bit)
  | dir (d : Direction)
  | dout (b : Bit)
  | sample (b : Bit)
  | settle (us : Nat)
  deriving DecidableEq, Repr

/-- BUF as (offset, byte) pairs in canonical form: offsets strictly rising and below 16, and no byte
0x00, which is what an unlisted offset reads as (R22; log 9). -/
abbrev Memory := List Host.Cell

/-- A value an operation hands back, in the widths of 43_response_view.md R146. -/
inductive Value where
  | u8 (b : Byte)
  | flag (b : Bool)
  | u16 (w : Half)
  | u7 (v : BitVec 7)
  | s16 (w : Half)
  deriving DecidableEq, Repr

/-- What the outside world asks of the block (60_exceptions.md R165; log 2, log 3). -/
inductive Request where
  /-- A reset, which happens only between commands (R166). -/
  | reset
  /-- A caller's call: a mnemonic or accessor name and the operand numbers (30_encoding.md R73, R75). -/
  | call (name : String) (operands : List Nat)
  /-- The same as a line of program text (30_encoding.md R73). -/
  | line (text : String)
  /-- A request to emit encoded bytes: the payload of a command runs it, any other bytes are refused, a
  control byte too (30_encoding.md R57, R58, R70; log 3). -/
  | encoded (bytes : List Byte)
  deriving DecidableEq, Repr

/-- The state of the block. The last four fields are the model's own. -/
structure State where
  /-- LINES (R20). -/
  lines : Lines
  /-- SR (R21). -/
  sr : Byte
  /-- BIT_IDX (R21). -/
  bitIdx : Fin 8
  /-- BYTE_IDX (R21). -/
  byteIdx : Offset
  /-- PHASE (R21). -/
  phase : Phase
  /-- BUF (R22). -/
  buf : Memory
  /-- MODE (R23). -/
  mode : Mode
  /-- PWR (R24). -/
  pwr : Power
  /-- FAULT: bit 0 MODE_UNDEFINED, bit 1 REFUSED (R25). -/
  fault : BitVec 2
  /-- TRACE, oldest event first (R27). -/
  trace : List Event
  /-- The model's own: how many device bits have been drawn (log 5). -/
  draws : Nat
  /-- The model's own: the value the operation just run handed back (R165; log 6). -/
  ret : Option Value
  /-- The model's own: the OPEN parameters, which no step writes (R9; log 7). -/
  params : Params
  /-- The model's own: the requests not yet taken, oldest first (R165; log 2). -/
  calls : List Request
  deriving DecidableEq, Repr

/-- Why the machine stops. -/
inductive Fault where
  /-- FAULT is non-zero: the block is stuck for good and takes no step (60_exceptions.md R149).
  Raised by `step` and by every meaning when FAULT ≠ 0. Safe: the spec gives such a block no step (log 1). -/
  | stuck
  deriving DecidableEq, Repr

/-- Why an instruction has no meaning. (A REFUSAL in the spec's sense, R151, is a next state with
FAULT.REFUSED set, not this.) -/
inductive Refusal where
  /-- An instruction not modelled yet, by its mnemonic. Raised by no arm of this model. Safe. -/
  | notModelled (mnemonic : String)
  deriving DecidableEq, Repr

/-- What one instruction or one step answers. -/
abbrev Result := Host.Outcome State Fault Refusal

/-- LINES after reset (R166, D26). -/
def Lines.reset : Lines :=
  { en := .released, clk := false, ddir := .input, dout := false }

/-- The state right after reset (70_reset_and_hazards.md R166). Every value of a field of the spec's is
the spec's own choice (D9, D26, D27, D37; log 8); the model's own fields: log 2, 5, 6, 7. -/
def State.reset : State :=
  { lines := Lines.reset
    sr := 0x00
    bitIdx := 0
    byteIdx := 0
    phase := .idle
    buf := []
    mode := .poweredDown
    pwr := .down
    fault := 0
    trace := []
    draws := 0
    ret := none
    params := Params.default
    calls := [] }

end Sys2Proof.Machine
end

