-- ==== Sys2Proof/Machine/Memory.lean ====
section
/-! DEFINITION. BUF as a memory: reading and writing one byte at an offset 0..15 (00_scope.md R11, 20_memory.md R41, R47, R48), and its canonical form. -/

namespace Sys2Proof.Machine

/-- What an offset that is not listed reads as: the reset value of every byte of BUF (R22, D27; log 9). -/
def unlistedByte : Byte := 0x00

/-- `BUF[k]`, `MemRead(k, 1)` (R11). -/
def Memory.read (m : Memory) (k : Offset) : Byte :=
  (m.lookup k.val).getD unlistedByte

/-- A cell put before the first cell of a higher offset. -/
def Memory.insertCell : Memory → Host.Cell → Memory
  | [], c => [c]
  | d :: rest, c => if c.1 < d.1 then c :: d :: rest else d :: Memory.insertCell rest c

/-- `BUF[k] <- v`, `MemWrite(k, 1, v)` (R11). Writing the value of an unlisted offset removes the cell. -/
def Memory.write (m : Memory) (k : Offset) (v : Byte) : Memory :=
  let others := m.filter (fun c => c.1 != k.val)
  if v = unlistedByte then others else Memory.insertCell others (k.val, v)

/-- The canonical form: offsets strictly rising and below 16, no cell equal to what an unlisted offset
reads as. -/
def Memory.wf (m : Memory) : Bool :=
  decide (m.Pairwise (fun c d => c.1 < d.1)) &&
    m.all (fun c => decide (c.1 < 16) && c.2 != unlistedByte)

end Sys2Proof.Machine
end

