-- ==== Sys2Proof/Machine/Ops.lean ====
section
/-! DEFINITION. The shared operations: line primitives (00_scope.md R12, R13), SEND_BYTE and RECV_BYTE (40_transport.md R80, R82), the three transactions (41_framer.md R89 to R94), staging and the command sequence (42_commands.md R98, R100, R102), taking a fault (00_scope.md R14, 60_exceptions.md R149 to R155) and the reset that leaves it (R156, 70_reset_and_hazards.md R166). -/

namespace Sys2Proof.Machine

/-! ### Line primitives (R12): each appends exactly one event -/

/-- An event is appended to TRACE (10_state.md R27). -/
def State.emit (e : Event) (s : State) : State := { s with trace := s.trace ++ [e] }

/-- `SetEN(a)`. -/
def State.setEN (a : Enable) (s : State) : State :=
  ({ s with lines := { s.lines with en := a } } : State).emit (.en a)

/-- `SetCLK(l)`. -/
def State.setCLK (l : Bit) (s : State) : State :=
  ({ s with lines := { s.lines with clk := l } } : State).emit (.clk l)

/-- `SetDIR(d)`. -/
def State.setDIR (d : Direction) (s : State) : State :=
  ({ s with lines := { s.lines with ddir := d } } : State).emit (.dir d)

/-- `SetDOUT(b)`. -/
def State.setDOUT (b : Bit) (s : State) : State :=
  ({ s with lines := { s.lines with dout := b } } : State).emit (.dout b)

/-- LINES.DIN, the value on the data line now (10_state.md R20): the device's next bit while the line is
released. DEDUCED: what the initiator drives while it drives it; no rule samples then (log 14). -/
def State.din (s : State) : Bit :=
  match s.lines.ddir with
  | .input => Config.deviceBit s.draws
  | .output => s.lines.dout

/-- `ReadDIN()`: the value on the line, recorded as a SAMPLE; a released line uses up one draw (R13, 20_memory.md R50). -/
def State.readDIN (s : State) : Bit × State :=
  let s' : State :=
    match s.lines.ddir with
    | .input => { s with draws := s.draws + 1 }
    | .output => s
  (s.din, s'.emit (.sample s.din))

/-- `Settle(t)`, t in microseconds: one event, no line changes (R13, 60_exceptions.md R160). -/
def State.settle (us : Nat) (s : State) : State := s.emit (.settle us)

/-- `PHASE <- p` (10_state.md R21). -/
def State.setPhase (p : Phase) (s : State) : State := { s with phase := p }

/-- `BYTE_IDX <- k` (R21). -/
def State.setByteIdx (k : Offset) (s : State) : State := { s with byteIdx := k }

/-- `BUF[k]` (R11). -/
def State.readBuf (s : State) (k : Offset) : Byte := s.buf.read k

/-- `BUF[k] <- v` (R11). -/
def State.writeBuf (k : Offset) (v : Byte) (s : State) : State := { s with buf := s.buf.write k v }

/-! ### Bit transport (R80, R82) -/

/-- `for i in 7 downto 0` (R16). -/
def bitsDown : List (Fin 8) := [7, 6, 5, 4, 3, 2, 1, 0]

/-- `SR <- SR[6:0] ++ v` (R80, R82). -/
def shiftIn (sr : Byte) (v : Bit) : Byte := sr.extractLsb' 0 7 ++ BitVec.ofBool v

/-- One transmit bit cell (R80, R81; D5, log 16). -/
def State.sendBit (i : Fin 8) (s : State) : State :=
  let s1 : State := { s with bitIdx := i }
  let s2 := ((s1.setDOUT (s1.sr.getLsbD 7)).setCLK true).setCLK false
  { s2 with sr := shiftIn s2.sr false }

/-- `SEND_BYTE(b)` (R80). -/
def State.sendByte (b : Byte) (s : State) : State :=
  bitsDown.foldl (fun t i => t.sendBit i) { s with sr := b }

/-- One receive bit cell (R82, R83; D6, log 16). -/
def State.recvBit (i : Fin 8) (s : State) : State :=
  let s1 := ({ s with bitIdx := i } : State).setCLK true
  let r := s1.readDIN
  let s2 : State := { r.2 with sr := shiftIn r.2.sr r.1 }
  s2.setCLK false

/-- `RECV_BYTE()` (R82). Its result is the SR it leaves. -/
def State.recvByte (s : State) : State :=
  bitsDown.foldl (fun t i => t.recvBit i) { s.setDIR .input with sr := 0x00 }

/-! ### Transactions (R89, R92 to R94) -/

/-- The offsets 0..7 of a payload. -/
def payloadOffsets : List Offset := [0, 1, 2, 3, 4, 5, 6, 7]

/-- The offsets 0..15 of BUF. -/
def allOffsets : List Offset := [0, 1, 2, 3, 4, 5, 6, 7, 8, 9, 10, 11, 12, 13, 14, 15]

/-- The prologue of every transaction (R89) and its control byte (R90). -/
def State.openTxn (ctrl : Byte) (s : State) : State :=
  (((s.setDIR .output).setEN .asserted).setPhase .ctrl).sendByte ctrl

/-- The epilogue of every transaction (R89). DEDUCED: PHASE is IDLE unless the sequencer's next phase
overwrites it (log 11). -/
def State.closeTxn (s : State) : State := (s.setEN .released).setPhase .idle

/-- `BUF[k] <- RECV_BYTE()` with `BYTE_IDX <- k` (R93, R94). -/
def State.recvInto (s : State) (k : Offset) : State :=
  let t := (s.setByteIdx k).recvByte
  t.writeBuf k t.sr

/-- `WRITE_TXN` (R92). -/
def State.writeTxn (s : State) : State :=
  (payloadOffsets.foldl (fun t k => (t.setByteIdx k).sendByte (t.readBuf k))
    ((s.openTxn ctrlWrite).setPhase .payload)).closeTxn

/-- `SHORT_READ_TXN` (R93). -/
def State.shortReadTxn (s : State) : State :=
  (((s.openTxn ctrlShortRead).setPhase .resp).recvInto 0).closeTxn

/-- `LONG_READ_TXN` (R94). -/
def State.longReadTxn (s : State) : State :=
  (allOffsets.foldl State.recvInto ((s.openTxn ctrlLongRead).setPhase .resp)).closeTxn

/-! ### Faults (R14, R149 to R156) -/

/-- The two bits of FAULT (10_state.md R25). -/
inductive FaultBit where
  | modeUndefined
  | refused
  deriving DecidableEq, Repr

/-- The place of each bit in FAULT (R25). -/
def FaultBit.mask : FaultBit → BitVec 2
  | .modeUndefined => 0b01
  | .refused => 0b10

/-- `raise Fault(k)`: the bit is set and the command ends with nothing else changed; no state is saved
and control goes nowhere (R14, R151, R155; log 1). -/
def State.raise (k : FaultBit) (s : State) : State := { s with fault := s.fault ||| k.mask }

/-- A faulted block is stuck: it takes no step (R149; log 1). -/
def State.guarded (s : State) (run : State → Result) : Result :=
  if s.fault = 0 then run s else .fault .stuck

/-- The only way out of a faulted block: a reset starts a new run (R156, R166). The device's draws go
on and the parameters and the requests still to come stay (log 5, 7, 19). -/
def State.restart (s : State) : State :=
  { State.reset with draws := s.draws, params := s.params, calls := s.calls }

/-! ### Receiver mode (10_state.md R23, 42_commands.md R100) -/

/-- The two receive modes that have opcodes and layouts of their own. -/
inductive Band where
  | fm
  | am
  deriving DecidableEq, Repr

/-- Whether MODE is `FM` or `AM`; every other MODE is neither (R23, R100). -/
def bandOf (p : Params) : Mode → Option Band
  | .poweredDown => none
  | .func n => if n = fmFunc then some .fm else if n = p.amFunc then some .am else none

/-- The band MODE selects now. -/
def State.band (s : State) : Option Band := bandOf s.params s.mode

/-! ### The command sequence (R98, R99, R102) -/

/-- The receive shape of a command (R99). -/
inductive Resp where
  | short
  | long
  deriving DecidableEq, Repr

/-- What is particular to one command variant with its operands (the template of 42_commands.md). -/
structure Command where
  /-- Every operand fits its width (30_encoding.md R76). -/
  fits : Bool
  /-- The MODE the variant needs; `none` if it is not mode-dependent (R100). -/
  band : Option Band
  /-- The FM antcap byte is allowed (R107). -/
  antcapOk : Bool
  /-- The N staged bytes, opcode first (R97, R65). -/
  staged : List Byte
  /-- The settle delay in microseconds (R99). -/
  settle : Nat
  /-- The receive shape (R99). -/
  resp : Resp
  deriving DecidableEq, Repr

/-- Admission, the first part of R102 after the FAULT check, in the order of 60_exceptions.md R154: the
fault raised, or none. -/
def State.admission (s : State) (c : Command) : Option FaultBit :=
  if !c.fits then some .refused
  else match c.band with
    | none => if c.antcapOk then none else some .refused
    | some b => match s.band with
      | none => some .modeUndefined
      | some m => if m ≠ b then some .refused else if c.antcapOk then none else some .refused

/-- `STAGE(v, ops)` (R98). -/
def State.stage (staged : List Byte) (s : State) : State :=
  payloadOffsets.foldl (fun t k => t.writeBuf k ((padded staged).getD k.val 0x00)) (s.setPhase .stage)

/-- The matching receive transaction (R102). -/
def State.readTxn (r : Resp) (s : State) : State :=
  match r with
  | .short => s.shortReadTxn
  | .long => s.longReadTxn

/-- The third part of R102: stage, send, settle, receive. -/
def State.exchange (c : Command) (s : State) : State :=
  (((((s.stage c.staged).writeTxn).setPhase .settle).settle c.settle).readTxn c.resp).setPhase .idle

/-- `EXEC` (R102): admission, then MODE and PWR (`before`), then the exchange. -/
def runCommand (c : Command) (before : State → State) (s : State) : Result :=
  s.guarded fun t =>
    match t.admission c with
    | some k => .next (t.raise k)
    | none => .next ((before t).exchange c)

/-- An operation that cannot fail, on a block that is not stuck (41_framer.md R91, 40_transport.md R87). -/
def runMicro (op : State → State) (s : State) : Result := s.guarded fun t => .next (op t)

/-- A value handed back; nothing of the block's own changes (43_response_view.md R145; log 6). -/
def State.give (v : Value) (s : State) : State := { s with ret := some v }

end Sys2Proof.Machine
end

