-- ==== Sys2Proof/Machine/Caller.lean ====
section
/-! DEFINITION. How a request of the outside world names an instruction: program text (30_encoding.md R73), the caller's mnemonics and accessor names with their operands (R73, R75), the resolution of the mode-dependent ones (42_commands.md R100), and the encoded bytes of a command (30_encoding.md R58, R70). -/

namespace Sys2Proof.Machine

/-! ### Program text (R73) -/

/-- DESIGN CHOICE: a space or a tab separates words (log 13). -/
def isBlank (c : Char) : Bool := c = ' ' || c = '\t'

/-- Blanks taken off both ends. -/
def trim (cs : List Char) : List Char :=
  ((cs.dropWhile isBlank).reverse.dropWhile isBlank).reverse

/-- The value of a hexadecimal digit of either case. -/
def digitVal (c : Char) : Option Nat :=
  let n := c.toNat
  if 48 ≤ n ∧ n ≤ 57 then some (n - 48)
  else if 65 ≤ n ∧ n ≤ 70 then some (n - 55)
  else if 97 ≤ n ∧ n ≤ 102 then some (n - 87)
  else none

/-- Digits of a base, read onto a value. -/
def readDigits (base : Nat) : Nat → List Char → Option Nat
  | acc, [] => some acc
  | acc, c :: cs =>
    match digitVal c with
    | some d => if d < base then readDigits base (acc * base + d) cs else none
    | none => none

/-- A literal: hexadecimal `0x..` or decimal (R73). -/
def readLiteral : List Char → Option Nat
  | [] => none
  | '0' :: 'x' :: [] => none
  | '0' :: 'x' :: cs => readDigits 16 0 cs
  | cs => readDigits 10 0 cs

/-- The pieces between separators. -/
def splitOnChar (sep : Char) : List Char → List (List Char)
  | [] => [[]]
  | c :: cs =>
    if c = sep then [] :: splitOnChar sep cs
    else match splitOnChar sep cs with
      | [] => [[c]]
      | w :: ws => (c :: w) :: ws

/-- Every piece a literal. -/
def readLiterals : List (List Char) → Option (List Nat)
  | [] => some []
  | w :: ws =>
    match readLiteral (trim w), readLiterals ws with
    | some n, some ns => some (n :: ns)
    | _, _ => none

/-- A line of program text: a mnemonic, then its operands separated by commas (R73). A line that does
not read so names nothing (log 13). -/
def readLine (text : String) : Option (String × List Nat) :=
  let cs := trim text.toList
  let name := String.ofList (cs.takeWhile (fun c => !isBlank c))
  let rest := trim (cs.dropWhile (fun c => !isBlank c))
  match rest with
  | [] => some (name, [])
  | _ => (readLiterals (splitOnChar ',' rest)).map (fun ns => (name, ns))

/-! ### Calls (R73, R75, R100) -/

/-- The one instruction of a call that takes no operand. -/
def call0 (ops : List Nat) (i : Instr) : Option Instr :=
  match ops with
  | [] => some i
  | _ => none

/-- A call of one operand. -/
def call1 (ops : List Nat) (f : Nat → Instr) : Option Instr :=
  match ops with
  | [a] => some (f a)
  | _ => none

/-- A call of two operands. -/
def call2 (ops : List Nat) (f : Nat → Nat → Instr) : Option Instr :=
  match ops with
  | [a, b] => some (f a b)
  | _ => none

/-- A call of three operands. -/
def call3 (ops : List Nat) (f : Nat → Nat → Nat → Instr) : Option Instr :=
  match ops with
  | [a, b, c] => some (f a b c)
  | _ => none

/-- One of a pair, by the band. -/
def pick {α : Type} (b : Band) (fm am : α) : α :=
  match b with
  | .fm => fm
  | .am => am

/-- `resolve` for the six mode-dependent mnemonics (R100). While MODE is neither FM nor AM the FM variant
stands for the command: its admission checks the same widths and then raises MODE_UNDEFINED, as
60_exceptions.md R154 orders them. -/
def resolveBand (p : Params) (m : Mode) : Band := (bandOf p m).getD .fm

/-- Every spelling of R73 and R75 with the instruction it names, given the operands and the band. A wrong
number of operands names nothing (log 12). -/
def callTable (b : Band) (ops : List Nat) : List (String × Option Instr) :=
  [ -- commands that are not mode-dependent
    ("POWER_UP", call2 ops .powerUp),
    ("GET_REV", call0 ops .getRev),
    ("POWER_DOWN", call0 ops .powerDown),
    ("SET_PROPERTY", call2 ops .setProperty),
    ("GET_PROPERTY", call1 ops .getProperty),
    ("GET_INT_STATUS", call0 ops .getIntStatus),
    ("FM_RDS_STATUS", call1 ops .fmRdsStatus),
    ("GPIO_CTL", call1 ops .gpioCtl),
    ("GPIO_SET", call1 ops .gpioSet) ] ++
  [ -- mode-dependent commands
    ("TUNE_FREQ", call3 ops (pick b .fmTuneFreq .amTuneFreq)),
    ("SEEK_START", call2 ops (pick b .fmSeekStart .amSeekStart)),
    ("TUNE_STATUS", call1 ops (pick b .fmTuneStatus .amTuneStatus)),
    ("RSQ_STATUS", call1 ops (pick b .fmRsqStatus .amRsqStatus)),
    ("AGC_STATUS", call0 ops (pick b .fmAgcStatus .amAgcStatus)),
    ("AGC_OVERRIDE", call2 ops (pick b .fmAgcOverride .amAgcOverride)) ] ++
  [ -- variant mnemonics written directly
    ("FM_TUNE_FREQ", call3 ops .fmTuneFreq),
    ("AM_TUNE_FREQ", call3 ops .amTuneFreq),
    ("FM_SEEK_START", call2 ops .fmSeekStart),
    ("AM_SEEK_START", call2 ops .amSeekStart),
    ("FM_TUNE_STATUS", call1 ops .fmTuneStatus),
    ("AM_TUNE_STATUS", call1 ops .amTuneStatus),
    ("FM_RSQ_STATUS", call1 ops .fmRsqStatus),
    ("AM_RSQ_STATUS", call1 ops .amRsqStatus),
    ("FM_AGC_STATUS", call0 ops .fmAgcStatus),
    ("AM_AGC_STATUS", call0 ops .amAgcStatus),
    ("FM_AGC_OVERRIDE", call2 ops .fmAgcOverride),
    ("AM_AGC_OVERRIDE", call2 ops .amAgcOverride) ] ++
  [ -- accessors
    ("statusByte", call0 ops .statusByte),
    ("cts", call0 ops .cts),
    ("err", call0 ops .err),
    ("rsqInt", call0 ops .rsqInt),
    ("rdsInt", call0 ops .rdsInt),
    ("stcInt", call0 ops .stcInt),
    ("frequency", call0 ops .frequency),
    ("rssi", call0 ops .rssi),
    ("snr", call0 ops .snr),
    ("antcap", call0 ops .antcap),
    ("fmStereo", call0 ops .fmStereo),
    ("stereoBlend", call0 ops .stereoBlend),
    ("freqOffset", call0 ops .freqOffset) ]

/-- The instruction a call names, if it names one. The micro-operations have no spelling (R57; log 4). -/
def instrOfCall (p : Params) (m : Mode) (name : String) (ops : List Nat) : Option Instr :=
  match (callTable (resolveBand p m) ops).lookup name with
  | some r => r
  | none => none

/-- The command that decoded bytes give the caller. A control byte gives none: a transaction is a
micro-operation, which the caller cannot invoke (30_encoding.md R57; log 3). -/
def commandOf : Except DecodeError Instr → Option Instr
  | .ok i => if i.isCommand then some i else none
  | .error _ => none

/-- The instruction a request names, if it names one: a command or an accessor, never a micro-operation
(30_encoding.md R57). -/
def requested (s : State) : Request → Option Instr
  | .reset => none
  | .call name ops => instrOfCall s.params s.mode name ops
  | .line text =>
    match readLine text with
    | some (name, ops) => instrOfCall s.params s.mode name ops
    | none => none
  | .encoded bytes => commandOf (decode s.params bytes)

/-- The oldest request taken off the list; the operation to run has handed back nothing yet (log 6). -/
def State.accept (s : State) (rest : List Request) : State := { s with calls := rest, ret := none }

/-- A request that names nothing is refused (60_exceptions.md R151, R154 item 2; 30_encoding.md R70). -/
def State.refuse (s : State) : Result := s.guarded fun t => .next (t.raise .refused)

/-- With no request pending the block waits for the caller (70_reset_and_hazards.md R166; log 20). -/
def State.wait (s : State) : Result := s.guarded fun t => .next t

/-- The opcode table's word put where the next step takes its instruction from: the oldest request (log 3). -/
def State.withEncoded (s : State) (bytes : List Byte) : State :=
  { s with calls := .encoded bytes :: s.calls }

end Sys2Proof.Machine
end

