-- ==== Sys2Proof/Machine/Commands.lean ====
section
/-! DEFINITION. The meanings of the 21 command variants (42_commands.md R101 to R123), each the run of R102 over what its own rule gives: operand widths (30_encoding.md R76), MODE needed (R100), staged bytes (R65), settle delay and receive shape (R99). -/

namespace Sys2Proof.Machine

/-- MODE and PWR as Power Up writes them (42_commands.md R101, R102; the only writer of MODE, 10_state.md R23). -/
def State.poweredUp (setup : Nat) (s : State) : State :=
  { s with mode := .func (funcOf setup), pwr := .up (.func (funcOf setup)) }

/-- PWR as Power Down writes it; MODE keeps its value (42_commands.md R103, 90_conflicts.md C2). -/
def State.poweredDown (s : State) : State := { s with pwr := .down }

/-- POWER_UP (R101): long exactly when the low nibble of setup is the library-ID query (D13, D23; log 21). -/
def execPowerUp (setup audioOut : Nat) (s : State) : Result :=
  runCommand
    { fits := fitsU8 setup && fitsU8 audioOut
      band := none
      antcapOk := true
      staged := [0x01, toU8 setup, toU8 audioOut]
      settle := settlePowerUp
      resp := if funcOf setup = qlidFunc then .long else .short }
    (fun t => t.poweredUp setup) s

/-- GET_REV (R104). -/
def execGetRev (s : State) : Result :=
  runCommand
    { fits := true
      band := none
      antcapOk := true
      staged := [0x10]
      settle := settleBase
      resp := .long }
    id s

/-- POWER_DOWN (R103). -/
def execPowerDown (s : State) : Result :=
  runCommand
    { fits := true
      band := none
      antcapOk := true
      staged := [0x11]
      settle := settleBase
      resp := .short }
    State.poweredDown s

/-- SET_PROPERTY (R105). -/
def execSetProperty (prop value : Nat) (s : State) : Result :=
  runCommand
    { fits := fitsU16 prop && fitsU16 value
      band := none
      antcapOk := true
      staged := [0x12, 0x00, hi (toU16 prop), lo (toU16 prop), hi (toU16 value), lo (toU16 value)]
      settle := settleSetProperty
      resp := .short }
    id s

/-- GET_PROPERTY (R106; D19, log 21). -/
def execGetProperty (prop : Nat) (s : State) : Result :=
  runCommand
    { fits := fitsU16 prop
      band := none
      antcapOk := true
      staged := [0x13, 0x00, hi (toU16 prop), lo (toU16 prop)]
      settle := settleBase
      resp := .short }
    id s

/-- GET_INT_STATUS (R112). -/
def execGetIntStatus (s : State) : Result :=
  runCommand
    { fits := true
      band := none
      antcapOk := true
      staged := [0x14]
      settle := settleBase
      resp := .short }
    id s

/-- FM_TUNE_FREQ (R108, R107; D15, log 21). -/
def execFmTuneFreq (setup freq antcap : Nat) (s : State) : Result :=
  runCommand
    { fits := fitsU8 setup && fitsU16 freq && fitsU16 antcap
      band := some .fm
      antcapOk := antcapAllowed s.params antcap
      staged := [0x20, toU8 setup, hi (toU16 freq), lo (toU16 freq), a8 antcap]
      settle := settleFmTune
      resp := .short }
    id s

/-- AM_TUNE_FREQ (R109; D15, D17, log 21). -/
def execAmTuneFreq (setup freq antcap : Nat) (s : State) : Result :=
  runCommand
    { fits := fitsU8 setup && fitsU16 freq && fitsU16 antcap
      band := some .am
      antcapOk := true
      staged := [0x40, amSetup setup, hi (toU16 freq), lo (toU16 freq), hi (toU16 antcap), lo (toU16 antcap)]
      settle := settleAmTune
      resp := .short }
    id s

/-- FM_SEEK_START (R110, R107; D18, log 21). Under `arg1_only` antcap is ignored, not refused (R110; log 10). -/
def execFmSeekStart (arg1 antcap : Nat) (s : State) : Result :=
  runCommand
    { fits := fitsU8 arg1 && fitsU16 antcap
      band := some .fm
      antcapOk := decide (s.params.seekFmLayout = .arg1Only) || antcapAllowed s.params antcap
      staged := match s.params.seekFmLayout with
        | .antcap => [0x21, toU8 arg1, 0x00, 0x00, a8 antcap]
        | .arg1Only => [0x21, toU8 arg1]
      settle := settleBase
      resp := .short }
    id s

/-- AM_SEEK_START (R111; D18, log 21). -/
def execAmSeekStart (arg1 antcap : Nat) (s : State) : Result :=
  runCommand
    { fits := fitsU8 arg1 && fitsU16 antcap
      band := some .am
      antcapOk := true
      staged := [0x41, toU8 arg1, 0x00, 0x00, hi (toU16 antcap), lo (toU16 antcap)]
      settle := settleBase
      resp := .short }
    id s

/-- FM_TUNE_STATUS (R113; D21, log 21). -/
def execFmTuneStatus (arg1 : Nat) (s : State) : Result :=
  runCommand
    { fits := fitsU8 arg1
      band := some .fm
      antcapOk := true
      staged := [0x22, toU8 arg1]
      settle := settleBase
      resp := .long }
    id s

/-- AM_TUNE_STATUS (R114; D21, log 21). -/
def execAmTuneStatus (arg1 : Nat) (s : State) : Result :=
  runCommand
    { fits := fitsU8 arg1
      band := some .am
      antcapOk := true
      staged := [0x42, toU8 arg1]
      settle := settleBase
      resp := .long }
    id s

/-- FM_RSQ_STATUS (R115; D21, log 21). -/
def execFmRsqStatus (arg1 : Nat) (s : State) : Result :=
  runCommand
    { fits := fitsU8 arg1
      band := some .fm
      antcapOk := true
      staged := [0x23, toU8 arg1]
      settle := settleBase
      resp := .long }
    id s

/-- AM_RSQ_STATUS (R116; D21, log 21). -/
def execAmRsqStatus (arg1 : Nat) (s : State) : Result :=
  runCommand
    { fits := fitsU8 arg1
      band := some .am
      antcapOk := true
      staged := [0x43, toU8 arg1]
      settle := settleBase
      resp := .long }
    id s

/-- FM_RDS_STATUS (R117; D21, log 21): not mode-dependent (R71). -/
def execFmRdsStatus (arg1 : Nat) (s : State) : Result :=
  runCommand
    { fits := fitsU8 arg1
      band := none
      antcapOk := true
      staged := [0x24, toU8 arg1]
      settle := settleBase
      resp := .long }
    id s

/-- FM_AGC_STATUS (R118). -/
def execFmAgcStatus (s : State) : Result :=
  runCommand
    { fits := true
      band := some .fm
      antcapOk := true
      staged := [0x27]
      settle := settleBase
      resp := .long }
    id s

/-- AM_AGC_STATUS (R119). -/
def execAmAgcStatus (s : State) : Result :=
  runCommand
    { fits := true
      band := some .am
      antcapOk := true
      staged := [0x47]
      settle := settleBase
      resp := .long }
    id s

/-- FM_AGC_OVERRIDE (R120; D20, log 21). -/
def execFmAgcOverride (rfAgcDis lnaGain : Nat) (s : State) : Result :=
  runCommand
    { fits := fitsU8 rfAgcDis && fitsU8 lnaGain
      band := some .fm
      antcapOk := true
      staged := [0x28, toU8 rfAgcDis, toU8 lnaGain]
      settle := settleBase
      resp := .short }
    id s

/-- AM_AGC_OVERRIDE (R121; D20, log 21). -/
def execAmAgcOverride (rfAgcDis lnaGain : Nat) (s : State) : Result :=
  runCommand
    { fits := fitsU8 rfAgcDis && fitsU8 lnaGain
      band := some .am
      antcapOk := true
      staged := [0x48, toU8 rfAgcDis, toU8 lnaGain]
      settle := settleBase
      resp := .short }
    id s

/-- GPIO_CTL (R122; D21, log 21). -/
def execGpioCtl (arg1 : Nat) (s : State) : Result :=
  runCommand
    { fits := fitsU8 arg1
      band := none
      antcapOk := true
      staged := [0x80, toU8 arg1]
      settle := settleBase
      resp := .short }
    id s

/-- GPIO_SET (R123; D21, log 21). -/
def execGpioSet (arg1 : Nat) (s : State) : Result :=
  runCommand
    { fits := fitsU8 arg1
      band := none
      antcapOk := true
      staged := [0x81, toU8 arg1]
      settle := settleBase
      resp := .short }
    id s

end Sys2Proof.Machine
end

