-- ==== Sys2Proof/Machine/Framer.lean ====
section
/-! DEFINITION. The meanings of the three transactions (41_framer.md R92 to R94). -/

namespace Sys2Proof.Machine

/-- WRITE_TXN (R92). -/
def execWriteTxn (s : State) : Result := runMicro State.writeTxn s

/-- SHORT_READ_TXN (R93). -/
def execShortReadTxn (s : State) : Result := runMicro State.shortReadTxn s

/-- LONG_READ_TXN (R94). -/
def execLongReadTxn (s : State) : Result := runMicro State.longReadTxn s

end Sys2Proof.Machine
end

