-- ==== Sys2Proof/Machine/Transport.lean ====
section
/-! DEFINITION. The meanings of the two transport primitives (40_transport.md R80, R82). -/

namespace Sys2Proof.Machine

/-- SEND_BYTE (R80). -/
def execSendByte (b : Byte) (s : State) : Result := runMicro (fun t => t.sendByte b) s

/-- RECV_BYTE (R82): its result is the byte assembled in SR (log 6). -/
def execRecvByte (s : State) : Result :=
  runMicro (fun t => t.recvByte.give (.u8 t.recvByte.sr)) s

end Sys2Proof.Machine
end

