-- ==== Sys2Proof/Machine/Flags.lean ====
section
/-! DEFINITION. The bit fields of response bytes: the status byte (30_encoding.md R69, D24) and RSQ byte 3 (43_response_view.md R142, R143, D25). The block has no flags of its own (10_state.md R26). -/

namespace Sys2Proof.Machine

/-- CTS, bit 7 of the status byte (R69, R133). PRESUMED by the spec itself (D24; log 22). -/
def ctsBit (b : Byte) : Bool := b.getLsbD 7

/-- ERR, bit 6 (R69, R134; log 22). -/
def errBit (b : Byte) : Bool := b.getLsbD 6

/-- RSQINT, bit 3 (R69, R135; log 22). -/
def rsqIntBit (b : Byte) : Bool := b.getLsbD 3

/-- RDSINT, bit 2 (R69, R136; log 22). -/
def rdsIntBit (b : Byte) : Bool := b.getLsbD 2

/-- STCINT, bit 0 (R69, R137; log 22). -/
def stcIntBit (b : Byte) : Bool := b.getLsbD 0

/-- The stereo flag, `BUF[3][7]` (R142, D25; log 23). -/
def stereoBit (b : Byte) : Bool := b.getLsbD 7

/-- The blend field, `BUF[3][6:0]` (R143, D25; log 23). -/
def blendField (b : Byte) : BitVec 7 := b.extractLsb' 0 7

end Sys2Proof.Machine
end

