-- ==== Sys2Proof/Machine/View.lean ====
section
/-! DEFINITION. The meanings of the thirteen accessors of the response view (43_response_view.md R132 to R148): pure reads of BUF, and of MODE for `antcap`. -/

namespace Sys2Proof.Machine

/-- An accessor: a value of the current state handed back, nothing of the block's changed (R145). -/
def runAccessor (v : State → Value) (s : State) : Result := runMicro (fun t => t.give (v t)) s

/-- `statusByte` (R132). -/
def execStatusByte (s : State) : Result := runAccessor (fun t => .u8 (t.readBuf 0)) s

/-- `cts` (R133). -/
def execCts (s : State) : Result := runAccessor (fun t => .flag (ctsBit (t.readBuf 0))) s

/-- `err` (R134). -/
def execErr (s : State) : Result := runAccessor (fun t => .flag (errBit (t.readBuf 0))) s

/-- `rsqInt` (R135). -/
def execRsqInt (s : State) : Result := runAccessor (fun t => .flag (rsqIntBit (t.readBuf 0))) s

/-- `rdsInt` (R136). -/
def execRdsInt (s : State) : Result := runAccessor (fun t => .flag (rdsIntBit (t.readBuf 0))) s

/-- `stcInt` (R137). -/
def execStcInt (s : State) : Result := runAccessor (fun t => .flag (stcIntBit (t.readBuf 0))) s

/-- `frequency` (R138). -/
def execFrequency (s : State) : Result :=
  runAccessor (fun t => .u16 (be16 (t.readBuf 2) (t.readBuf 3))) s

/-- `rssi` (R139). -/
def execRssi (s : State) : Result := runAccessor (fun t => .u8 (t.readBuf 4)) s

/-- `snr` (R140). -/
def execSnr (s : State) : Result := runAccessor (fun t => .u8 (t.readBuf 5)) s

/-- `antcap` (R141, D34): its layout is MODE's; outside FM and AM it raises MODE_UNDEFINED. -/
def execAntcap (s : State) : Result :=
  s.guarded fun t =>
    match t.band with
    | some .fm => .next (t.give (.u16 (zext16 (t.readBuf 7))))
    | some .am => .next (t.give (.u16 (be16 (t.readBuf 6) (t.readBuf 7))))
    | none => .next (t.raise .modeUndefined)

/-- `fmStereo` (R142). -/
def execFmStereo (s : State) : Result := runAccessor (fun t => .flag (stereoBit (t.readBuf 3))) s

/-- `stereoBlend` (R143). -/
def execStereoBlend (s : State) : Result := runAccessor (fun t => .u7 (blendField (t.readBuf 3))) s

/-- `freqOffset` (R144). -/
def execFreqOffset (s : State) : Result := runAccessor (fun t => .s16 (sext16 (t.readBuf 7))) s

end Sys2Proof.Machine
end

