-- ==== Sys2Proof/Machine/Dispatch.lean ====
section
/-! DEFINITION. The dispatch: one arm per constructor of Instr, each one direct call of its meaning. -/

namespace Sys2Proof.Machine

def exec (i : Instr) (s : State) : Host.Outcome State Fault Refusal :=
  match i with
  | .powerUp setup audioOut => Sys2Proof.Machine.execPowerUp setup audioOut s
  | .getRev => Sys2Proof.Machine.execGetRev s
  | .powerDown => Sys2Proof.Machine.execPowerDown s
  | .setProperty prop value => Sys2Proof.Machine.execSetProperty prop value s
  | .getProperty prop => Sys2Proof.Machine.execGetProperty prop s
  | .getIntStatus => Sys2Proof.Machine.execGetIntStatus s
  | .fmTuneFreq setup freq antcap => Sys2Proof.Machine.execFmTuneFreq setup freq antcap s
  | .amTuneFreq setup freq antcap => Sys2Proof.Machine.execAmTuneFreq setup freq antcap s
  | .fmSeekStart arg1 antcap => Sys2Proof.Machine.execFmSeekStart arg1 antcap s
  | .amSeekStart arg1 antcap => Sys2Proof.Machine.execAmSeekStart arg1 antcap s
  | .fmTuneStatus arg1 => Sys2Proof.Machine.execFmTuneStatus arg1 s
  | .amTuneStatus arg1 => Sys2Proof.Machine.execAmTuneStatus arg1 s
  | .fmRsqStatus arg1 => Sys2Proof.Machine.execFmRsqStatus arg1 s
  | .amRsqStatus arg1 => Sys2Proof.Machine.execAmRsqStatus arg1 s
  | .fmRdsStatus arg1 => Sys2Proof.Machine.execFmRdsStatus arg1 s
  | .fmAgcStatus => Sys2Proof.Machine.execFmAgcStatus s
  | .amAgcStatus => Sys2Proof.Machine.execAmAgcStatus s
  | .fmAgcOverride rfAgcDis lnaGain => Sys2Proof.Machine.execFmAgcOverride rfAgcDis lnaGain s
  | .amAgcOverride rfAgcDis lnaGain => Sys2Proof.Machine.execAmAgcOverride rfAgcDis lnaGain s
  | .gpioCtl arg1 => Sys2Proof.Machine.execGpioCtl arg1 s
  | .gpioSet arg1 => Sys2Proof.Machine.execGpioSet arg1 s
  | .writeTxn => Sys2Proof.Machine.execWriteTxn s
  | .shortReadTxn => Sys2Proof.Machine.execShortReadTxn s
  | .longReadTxn => Sys2Proof.Machine.execLongReadTxn s
  | .sendByte b => Sys2Proof.Machine.execSendByte b s
  | .recvByte => Sys2Proof.Machine.execRecvByte s
  | .statusByte => Sys2Proof.Machine.execStatusByte s
  | .cts => Sys2Proof.Machine.execCts s
  | .err => Sys2Proof.Machine.execErr s
  | .rsqInt => Sys2Proof.Machine.execRsqInt s
  | .rdsInt => Sys2Proof.Machine.execRdsInt s
  | .stcInt => Sys2Proof.Machine.execStcInt s
  | .frequency => Sys2Proof.Machine.execFrequency s
  | .rssi => Sys2Proof.Machine.execRssi s
  | .snr => Sys2Proof.Machine.execSnr s
  | .antcap => Sys2Proof.Machine.execAntcap s
  | .fmStereo => Sys2Proof.Machine.execFmStereo s
  | .stereoBlend => Sys2Proof.Machine.execStereoBlend s
  | .freqOffset => Sys2Proof.Machine.execFreqOffset s

end Sys2Proof.Machine
end

