-- ==== Sys2Proof/Machine/Step.lean ====
section
/-! DEFINITION. One step: the oldest request of the outside world is taken and run to its end (20_memory.md R49, 42_commands.md R102). -/

namespace Sys2Proof.Machine

/-- One step of the block. A reset is taken even by a stuck block (60_exceptions.md R149, R156). -/
def step (s : State) : Host.Outcome State Fault Refusal :=
  match s.calls with
  | [] => s.wait
  | .reset :: rest => .next (s.accept rest).restart
  | r :: rest =>
    match requested s r with
    | some i => exec i (s.accept rest)
    | none => (s.accept rest).refuse

/-- `s` with the instruction of the opcode table's word `w` as its next request. -/
def State.withFetchWord (s : State) (nbits w : Nat) : State := s.withEncoded (tableBytes nbits w)

end Sys2Proof.Machine
end

