-- ==== Sys2Proof/Machine/Timing.lean ====
section
/-! DEFINITION. What the spec says of time and of electrical levels: the open bit timings and their lower bounds (40_transport.md R81, R83, R86, 41_framer.md R89, 70_reset_and_hazards.md R179), a settle in cycles (60_exceptions.md R159), the level of the enable line (10_state.md R20) and the electrical waveform (40_transport.md R88). Nothing here is used by a step: no rule depends on a duration (R178). -/

namespace Sys2Proof.Machine

/-- The OPEN durations of R9, lower bounds with no upper bound, in nanoseconds (log 17). -/
structure BitTiming where
  tSetup : Nat
  tHigh : Nat
  tLow : Nat
  tEnLead : Nat
  tEnLag : Nat
  tTurn : Nat
  deriving DecidableEq, Repr

/-- `C`, the transmit bit cell (R179). -/
def BitTiming.sendCell (t : BitTiming) : Nat := t.tSetup + t.tHigh + t.tLow

/-- `R`, the receive bit cell (R179). -/
def BitTiming.recvCell (t : BitTiming) : Nat := t.tHigh + t.tLow

/-- How many response bits a receive shape clocks in (R95). -/
def Resp.bits : Resp → Nat
  | .short => 8
  | .long => 128

/-- The lower bound of R179 on one command's duration, in nanoseconds. -/
def minCommandTime (t : BitTiming) (r : Resp) (settleUs : Nat) : Nat :=
  2 * t.tEnLead + 2 * t.tEnLag + 72 * t.sendCell + 8 * t.sendCell + t.tTurn
    + r.bits * t.recvCell + 1000 * settleUs

/-- LINES after the event of a line primitive (R12). -/
def Lines.after (l : Lines) : Event → Lines
  | .en e => { l with en := e }
  | .clk b => { l with clk := b }
  | .dir d => { l with ddir := d }
  | .dout b => { l with dout := b }
  | .sample _ => l
  | .settle _ => l

/-- LINES after a trace, from the levels it starts at. -/
def Lines.replay (l : Lines) (tr : List Event) : Lines := tr.foldl Lines.after l

/-- The least time that must pass after an event before the next line operation (R81, R83, R89), and a
settle's own time (R160). The turnaround is owed where the line turns from driven to released (R83). -/
def eventTime (t : BitTiming) (l : Lines) : Event → Nat
  | .en .asserted => t.tEnLead
  | .en .released => t.tEnLag
  | .clk true => t.tHigh
  | .clk false => t.tLow
  | .dir .input => if l.ddir = .output then t.tTurn else 0
  | .dir .output => 0
  | .dout _ => t.tSetup
  | .sample _ => 0
  | .settle us => 1000 * us

/-- The lower bounds of a trace added up, from the line levels it starts at. The lag before an enable
release is counted at the release (log 17). -/
def traceTime (t : BitTiming) : Lines → List Event → Nat
  | _, [] => 0
  | l, e :: tr => eventTime t l e + traceTime t (l.after e) tr

/-- A settle of `us` microseconds in device clock cycles, for CLOCK_CYCLES_PER_US (R159).
DESIGN CHOICE: the spec says only that CLOCK_CYCLES_PER_US is a positive number; here it is a natural number,
so 0 is admitted and a fractional rate is not (log 26). -/
def settleCycles (clockCyclesPerUs us : Nat) : Nat := us * clockCyclesPerUs

/-- EN_ACTIVE_LEVEL applied: the electrical level of the enable line (10_state.md R20, D3). -/
def enableLevel (activeLevel : Bit) : Enable → Bit
  | .asserted => activeLevel
  | .released => !activeLevel

/-- The electrical waveform of a trace (R88): without SAMPLE events and without the line events that
repeat the line's current value. -/
def waveform : Lines → List Event → List Event
  | _, [] => []
  | l, .sample _ :: tr => waveform l tr
  | l, .settle us :: tr => .settle us :: waveform l tr
  | l, .en e :: tr =>
    if l.en = e then waveform l tr else .en e :: waveform { l with en := e } tr
  | l, .clk b :: tr =>
    if l.clk = b then waveform l tr else .clk b :: waveform { l with clk := b } tr
  | l, .dir d :: tr =>
    if l.ddir = d then waveform l tr else .dir d :: waveform { l with ddir := d } tr
  | l, .dout b :: tr =>
    if l.dout = b then waveform l tr else .dout b :: waveform { l with dout := b } tr

end Sys2Proof.Machine
end

