-- ==== Sys2Proof/Safety.lean ====
section
/-! DEFINITION. The terms claims are stated in: the observation of a run (00_scope.md R8), the events each operation appends (40_transport.md R80, R82, 41_framer.md R92 to R94), what a command's run leaves (42_commands.md R102), the bytes a trace carries on the wire (30_encoding.md R60 to R63), the line discipline (40_transport.md R84, R85, 41_framer.md R96, 70_reset_and_hazards.md R173, R174) and the invariants. -/

namespace Sys2Proof.Safety

open Machine

/-! ### Observation (R8) -/

/-- What a run of the block is observed by (R8, D2). -/
structure Observation where
  trace : List Event
  buf : Memory
  mode : Mode
  fault : BitVec 2
  deriving DecidableEq, Repr

/-- The observation of a state (R8). -/
def observe (s : State) : Observation :=
  { trace := s.trace, buf := s.buf, mode := s.mode, fault := s.fault }

/-- A faulted state is never a final state of a run (60_exceptions.md R149). -/
def mayEnd (s : State) : Bool := s.fault == 0

/-! ### Bytes of operands and of the device -/

/-- The byte that holds a number below 256. -/
def byteOf (n : Nat) : Byte := BitVec.ofNat 8 n

/-- The high byte of a 16-bit number. -/
def highByte (n : Nat) : Byte := BitVec.ofNat 8 (n / 256)

/-- The low byte of a 16-bit number. -/
def lowByte (n : Nat) : Byte := BitVec.ofNat 8 (n % 256)

/-- The byte the device supplies with its draws n to n+7, the first draw its bit 7 (R82). -/
def deviceByte (n : Nat) : Byte :=
  BitVec.ofBool (Config.deviceBit n) ++ BitVec.ofBool (Config.deviceBit (n + 1)) ++
  BitVec.ofBool (Config.deviceBit (n + 2)) ++ BitVec.ofBool (Config.deviceBit (n + 3)) ++
  BitVec.ofBool (Config.deviceBit (n + 4)) ++ BitVec.ofBool (Config.deviceBit (n + 5)) ++
  BitVec.ofBool (Config.deviceBit (n + 6)) ++ BitVec.ofBool (Config.deviceBit (n + 7))

/-! ### Events -/

/-- The three events of one transmitted bit (R80, R81). -/
def sendCell (b : Bit) : List Event := [.dout b, .clk true, .clk false]

/-- The 24 events of SEND_BYTE, bit 7 first (R80). -/
def sendEvents (b : Byte) : List Event :=
  [7, 6, 5, 4, 3, 2, 1, 0].flatMap fun i => sendCell (b.getLsbD i)

/-- The three events of one received bit (R82, R83). -/
def recvCell (b : Bit) : List Event := [.clk true, .sample b, .clk false]

/-- The 25 events of RECV_BYTE whose draws are n to n+7 (R82). -/
def recvEvents (n : Nat) : List Event :=
  .dir .input :: [0, 1, 2, 3, 4, 5, 6, 7].flatMap fun i => recvCell (Config.deviceBit (n + i))

/-- A transaction's events: the enable bracket around its control byte and what follows (R89, R90). -/
def bracket (ctrl : Byte) (body : List Event) : List Event :=
  [.dir .output, .en .asserted] ++ sendEvents ctrl ++ body ++ [.en .released]

/-- The events of WRITE_TXN (R92). -/
def writeEvents (payload : List Byte) : List Event := bracket 0x48 (payload.flatMap sendEvents)

/-- The events of SHORT_READ_TXN (R93). -/
def shortReadEvents (n : Nat) : List Event := bracket 0x80 (recvEvents n)

/-- The events of LONG_READ_TXN (R94). -/
def longReadEvents (n : Nat) : List Event :=
  bracket 0xC0 ((List.range 16).flatMap fun k => recvEvents (n + 8 * k))

/-- The events of the matching receive transaction (R102). -/
def readEvents (r : Resp) (n : Nat) : List Event :=
  match r with
  | .short => shortReadEvents n
  | .long => longReadEvents n

/-- The events of a whole command (R102). -/
def commandEvents (payload : List Byte) (us : Nat) (r : Resp) (n : Nat) : List Event :=
  writeEvents payload ++ [.settle us] ++ readEvents r n

/-! ### Receive modes (10_state.md R23) -/

/-- MODE is `FM`, that is `Func(0x0)`. -/
def InFm (s : State) : Prop := s.mode = .func 0x0

/-- MODE is `AM`, that is `Func(AM_FUNC)`, for an AM_FUNC of its domain (00_scope.md R9). -/
def InAm (s : State) : Prop := s.mode = .func s.params.amFunc ∧ s.params.wf = true

/-- MODE is neither `FM` nor `AM`: `PoweredDown`, `QLID` or another function code. -/
def InNeither (s : State) : Prop := s.mode ≠ .func 0x0 ∧ s.mode ≠ .func s.params.amFunc

/-! ### What a command leaves -/

/-- BUF after a command (R98, R93, R94): a short read refreshes only BUF[0] over the staged payload and
leaves BUF[8..15]; a long read refreshes all 16 bytes. -/
def bufAfter (s : State) (payload : List Byte) (r : Resp) (k : Offset) : Byte :=
  match r with
  | .short =>
    if k = 0 then deviceByte s.draws
    else if k.val < 8 then payload.getD k.val 0x00
    else s.readBuf k
  | .long => deviceByte (s.draws + 8 * k.val)

/-- The offset of the last byte a receive shape stores (R93, R94). -/
def lastOffset (r : Resp) : Offset :=
  match r with
  | .short => 0
  | .long => 15

/-- `t` is what the run of a command that passed admission makes of `s`: the whole of R102's third part,
field by field. MODE and PWR are said apart, since two commands write them. The event order inside a bit
cell and a bracket is the spec's choice (D5, D6, D32; log 16). -/
structure Ran (s t : State) (payload : List Byte) (us : Nat) (r : Resp) : Prop where
  trace : t.trace = s.trace ++ commandEvents payload us r s.draws
  buf : ∀ k : Offset, t.readBuf k = bufAfter s payload r k
  lines : t.lines = { en := .released, clk := false, ddir := .input, dout := false }
  sr : t.sr = deviceByte (s.draws + 8 * (lastOffset r).val)
  bitIdx : t.bitIdx = 0
  byteIdx : t.byteIdx = lastOffset r
  phase : t.phase = .idle
  fault : t.fault = s.fault
  draws : t.draws = s.draws + r.bits
  ret : t.ret = s.ret
  params : t.params = s.params
  calls : t.calls = s.calls

/-- `exec i s` completes as a command that sends this payload, settles and reads so, and writes neither
MODE nor PWR. -/
def Completes (i : Instr) (s : State) (payload : List Byte) (us : Nat) (r : Resp) : Prop :=
  ∃ t, exec i s = .next t ∧ Ran s t payload us r ∧ t.mode = s.mode ∧ t.pwr = s.pwr

/-- The band a mode-dependent variant needs (42_commands.md R100); `none` for every other instruction. -/
def neededBand : Instr → Option Band
  | .fmTuneFreq _ _ _ => some .fm
  | .amTuneFreq _ _ _ => some .am
  | .fmSeekStart _ _ => some .fm
  | .amSeekStart _ _ => some .am
  | .fmTuneStatus _ => some .fm
  | .amTuneStatus _ => some .am
  | .fmRsqStatus _ => some .fm
  | .amRsqStatus _ => some .am
  | .fmAgcStatus => some .fm
  | .amAgcStatus => some .am
  | .fmAgcOverride _ _ => some .fm
  | .amAgcOverride _ _ => some .am
  | .powerUp _ _ => none
  | .getRev => none
  | .powerDown => none
  | .setProperty _ _ => none
  | .getProperty _ => none
  | .getIntStatus => none
  | .fmRdsStatus _ => none
  | .gpioCtl _ => none
  | .gpioSet _ => none
  | .writeTxn => none
  | .shortReadTxn => none
  | .longReadTxn => none
  | .sendByte _ => none
  | .recvByte => none
  | .statusByte => none
  | .cts => none
  | .err => none
  | .rsqInt => none
  | .rdsInt => none
  | .stcInt => none
  | .frequency => none
  | .rssi => none
  | .snr => none
  | .antcap => none
  | .fmStereo => none
  | .stereoBlend => none
  | .freqOffset => none

/-- The spellings of 30_encoding.md R73 (commands and variant mnemonics) and R75 (accessors). -/
def spellings : List String :=
  ["POWER_UP", "GET_REV", "POWER_DOWN", "SET_PROPERTY", "GET_PROPERTY", "GET_INT_STATUS", "TUNE_FREQ",
    "SEEK_START", "TUNE_STATUS", "RSQ_STATUS", "FM_RDS_STATUS", "AGC_STATUS", "AGC_OVERRIDE", "GPIO_CTL",
    "GPIO_SET"] ++
  ["FM_TUNE_FREQ", "AM_TUNE_FREQ", "FM_SEEK_START", "AM_SEEK_START", "FM_TUNE_STATUS", "AM_TUNE_STATUS",
    "FM_RSQ_STATUS", "AM_RSQ_STATUS", "FM_AGC_STATUS", "AM_AGC_STATUS", "FM_AGC_OVERRIDE",
    "AM_AGC_OVERRIDE"] ++
  ["statusByte", "cts", "err", "rsqInt", "rdsInt", "stcInt", "frequency", "rssi", "snr", "antcap",
    "fmStereo", "stereoBlend", "freqOffset"]

/-- The spellings that name one instruction in every MODE, with operands a, b and c as each takes them: the
mode-independent mnemonics and the variant mnemonics of 30_encoding.md R73, the accessor names of R75. -/
def plainCalls (a b c : Nat) : List (String × List Nat × Instr) :=
  [("POWER_UP", [a, b], .powerUp a b), ("GET_REV", [], .getRev), ("POWER_DOWN", [], .powerDown),
    ("SET_PROPERTY", [a, b], .setProperty a b), ("GET_PROPERTY", [a], .getProperty a),
    ("GET_INT_STATUS", [], .getIntStatus), ("FM_RDS_STATUS", [a], .fmRdsStatus a),
    ("GPIO_CTL", [a], .gpioCtl a), ("GPIO_SET", [a], .gpioSet a)] ++
  [("FM_TUNE_FREQ", [a, b, c], .fmTuneFreq a b c), ("AM_TUNE_FREQ", [a, b, c], .amTuneFreq a b c),
    ("FM_SEEK_START", [a, b], .fmSeekStart a b), ("AM_SEEK_START", [a, b], .amSeekStart a b),
    ("FM_TUNE_STATUS", [a], .fmTuneStatus a), ("AM_TUNE_STATUS", [a], .amTuneStatus a),
    ("FM_RSQ_STATUS", [a], .fmRsqStatus a), ("AM_RSQ_STATUS", [a], .amRsqStatus a),
    ("FM_AGC_STATUS", [], .fmAgcStatus), ("AM_AGC_STATUS", [], .amAgcStatus),
    ("FM_AGC_OVERRIDE", [a, b], .fmAgcOverride a b), ("AM_AGC_OVERRIDE", [a, b], .amAgcOverride a b)] ++
  [("statusByte", [], .statusByte), ("cts", [], .cts), ("err", [], .err), ("rsqInt", [], .rsqInt),
    ("rdsInt", [], .rdsInt), ("stcInt", [], .stcInt), ("frequency", [], .frequency), ("rssi", [], .rssi),
    ("snr", [], .snr), ("antcap", [], .antcap), ("fmStereo", [], .fmStereo),
    ("stereoBlend", [], .stereoBlend), ("freqOffset", [], .freqOffset)]

/-- The six mode-dependent mnemonics with their operands, the FM variant and the AM variant (30_encoding.md
R73, 42_commands.md R100). -/
def bandCalls (a b c : Nat) : List (String × List Nat × Instr × Instr) :=
  [("TUNE_FREQ", [a, b, c], .fmTuneFreq a b c, .amTuneFreq a b c),
    ("SEEK_START", [a, b], .fmSeekStart a b, .amSeekStart a b),
    ("TUNE_STATUS", [a], .fmTuneStatus a, .amTuneStatus a),
    ("RSQ_STATUS", [a], .fmRsqStatus a, .amRsqStatus a),
    ("AGC_STATUS", [], .fmAgcStatus, .amAgcStatus),
    ("AGC_OVERRIDE", [a, b], .fmAgcOverride a b, .amAgcOverride a b)]

/-- How many operands each of the 40 spellings takes (R73, R75). -/
def arities : List (String × Nat) :=
  (plainCalls 0 0 0).map (fun e => (e.1, e.2.1.length)) ++
  (bandCalls 0 0 0).map (fun e => (e.1, e.2.1.length))

/-- The 21 opcodes of 30_encoding.md R65. -/
def opcodes : List Byte :=
  [0x01, 0x10, 0x11, 0x12, 0x13, 0x14, 0x20, 0x21, 0x22, 0x23, 0x24, 0x27, 0x28, 0x40, 0x41, 0x42, 0x43,
    0x47, 0x48, 0x80, 0x81]

/-- Whether the instruction is one of the thirteen accessors (R146). -/
def isAccessor (i : Instr) : Bool :=
  i ∈ [Instr.statusByte, .cts, .err, .rsqInt, .rdsInt, .stcInt, .frequency, .rssi, .snr, .antcap,
    .fmStereo, .stereoBlend, .freqOffset]

/-! ### The wire -/

/-- The bits of a byte in the order they travel (20_memory.md R43). -/
def byteBits (b : Byte) : List Bit := [7, 6, 5, 4, 3, 2, 1, 0].map fun i => b.getLsbD i

/-- The bits the initiator puts on the wire in a trace: the driven value at each clock pulse inside an
enable bracket. -/
def wireBits : Lines → List Event → List Bit
  | _, [] => []
  | l, e :: tr =>
    let rest := wireBits (l.after e) tr
    match e with
    | .clk true => if l.en = .asserted ∧ l.ddir = .output then l.dout :: rest else rest
    | _ => rest

/-- Whether an event belongs to the waveform at these levels: a settle does, a sample does not, a line event
does exactly when it changes a level (40_transport.md R88). -/
def inWaveform (l : Lines) : Event → Bool
  | .settle _ => true
  | e => decide (l.after e ≠ l)

/-- The pulses of a trace one by one, each with the enable, the direction and the bit on the data line: the
driven bit at the rise of a pulse while the line is driven, the sampled bit while it is released. -/
def linePulses : Lines → List Event → List (Enable × Direction × Bit)
  | _, [] => []
  | l, .clk true :: tr =>
    if l.ddir = .output then (l.en, .output, l.dout) :: linePulses (l.after (.clk true)) tr
    else linePulses (l.after (.clk true)) tr
  | l, .sample b :: tr => (l.en, l.ddir, b) :: linePulses l tr
  | l, e :: tr => linePulses (l.after e) tr

/-- How many clock pulses a trace holds. -/
def pulses (tr : List Event) : Nat := tr.count (.clk true)

/-- Whether a line operation keeps the discipline at these levels: the enable line changes only with the
clock low, and never to the level it has (R84, R96); the line is taken back only while the enable is
released and released only inside a bracket, with the clock low (R85, R173); data changes only while it
is driven, inside a bracket, with the clock low (R81, R85); a pulse lies inside a bracket (R84); a
sample is of a released line inside a pulse (R83); a settle falls outside every bracket (R52, R174). -/
def allowed (l : Lines) : Event → Bool
  | .en e => decide (l.clk = false ∧ l.en ≠ e)
  | .clk b => decide (l.en = .asserted ∧ l.clk ≠ b)
  | .dir .output => decide (l.en = .released ∧ l.clk = false)
  | .dir .input => decide (l.en = .asserted ∧ l.clk = false)
  | .dout _ => decide (l.en = .asserted ∧ l.ddir = .output ∧ l.clk = false)
  | .sample _ => decide (l.en = .asserted ∧ l.ddir = .input ∧ l.clk = true)
  | .settle _ => decide (l.en = .released ∧ l.clk = false)

/-- Every event of a trace keeps the discipline, from these levels on. -/
def disciplined : Lines → List Event → Bool
  | _, [] => true
  | l, e :: tr => allowed l e && disciplined (l.after e) tr

/-! ### Invariants -/

/-- BUF is in canonical form. -/
def BufCanonical (s : State) : Prop := s.buf.wf = true

/-- Between commands the bus and the sequencer are at rest (R19, R96). -/
structure AtRest (s : State) : Prop where
  en : s.lines.en = .released
  clk : s.lines.clk = false
  phase : s.phase = .idle
  bitIdx : s.bitIdx = 0

/-- TRACE accounts for LINES and keeps the line discipline from the reset levels on. -/
structure TraceDisciplined (s : State) : Prop where
  lines : s.lines = Lines.reset.replay s.trace
  kept : disciplined Lines.reset s.trace = true
  rest : AtRest s

/-- FAULT never holds both bits (60_exceptions.md R154). -/
def OneFaultAtMost (s : State) : Prop := s.fault = 0 ∨ s.fault = 1 ∨ s.fault = 2

/-- The ghost PWR is `Down`, or `Up(m)` for the MODE of the last Power Up (10_state.md R23, R24). -/
def PowerMatchesMode (s : State) : Prop := s.pwr = .down ∨ (s.pwr = .up s.mode ∧ s.mode ≠ .poweredDown)

end Sys2Proof.Safety
end

