-- ==== Sys2Proof/Certificates/Slice0/Obligations.lean ====
section
/-! DEFINITION. The statements for the provers, each a def Obligations.<Name> : Prop. A statement whose docstring names a decision D<n> of 92_eei_decisions.md or a log entry rests on a choice there, not on the source alone. -/

open Sys2Proof Sys2Proof.Machine Sys2Proof.Safety

/-- State.reset has LINES released, 0, in, 0; SR, BIT_IDX, BYTE_IDX 0; PHASE IDLE; every byte of BUF 0x00;
MODE PoweredDown; PWR Down; FAULT 0; TRACE empty. Every one of these values is the spec's own choice (D9, D26,
D27, D37; log 8). -/
def Obligations.ResetLeavesTheTabledValues : Prop :=
  State.reset.lines = { en := .released, clk := false, ddir := .input, dout := false } ∧
  State.reset.sr = 0x00 ∧ State.reset.bitIdx = 0 ∧ State.reset.byteIdx = 0 ∧
  State.reset.phase = .idle ∧ (∀ k : Offset, State.reset.readBuf k = 0x00) ∧
  State.reset.mode = .poweredDown ∧ State.reset.pwr = .down ∧ State.reset.fault = 0 ∧
  State.reset.trace = []

/-- On a block that is not stuck, SEND_BYTE(b) completes: the trace gains the 24 events of b's bits from bit 7
to bit 0, DOUT is bit 0 of b, CLK 0, SR 0x00, BIT_IDX 0, and nothing else changes. The order inside a bit cell
is the spec's choice (D5; log 16). -/
def Obligations.SendByteEmitsItsBitsFromBitSeven : Prop :=
  ∀ (b : Byte) (s : State), s.fault = 0 →
    exec (.sendByte b) s = .next { s with
      lines := { s.lines with dout := b.getLsbD 0, clk := false }
      sr := 0x00
      bitIdx := 0
      trace := s.trace ++ sendEvents b } ∧
    (sendEvents b).length = 24

/-- On a block that is not stuck, RECV_BYTE() completes: DDIR is in, CLK 0, SR and the result are the byte of
the next eight draws with the first as bit 7, the trace gains DIR(in) and eight CLK(1), SAMPLE, CLK(0), eight
draws are used, and nothing else changes. Holds for every value of the draws. Where in the pulse the sample
falls is the spec's choice (D6; log 16); the result is carried in the model's field ret (log 6). -/
def Obligations.RecvByteAssemblesEightSamples : Prop :=
  ∀ s : State, s.fault = 0 →
    exec .recvByte s = .next { s with
      lines := { s.lines with ddir := .input, clk := false }
      sr := deviceByte s.draws
      bitIdx := 0
      draws := s.draws + 8
      ret := some (.u8 (deviceByte s.draws))
      trace := s.trace ++ recvEvents s.draws } ∧
    (recvEvents s.draws).length = 25

/-- On a block that is not stuck, WRITE_TXN completes: the trace gains 219 events, DIR(out), EN(asserted),
SEND_BYTE's events for 0x48 and for BUF[0] to BUF[7], EN(released); DDIR is out, DOUT bit 0 of BUF[7], CLK 0,
SR 0x00, BIT_IDX 0, BYTE_IDX 7, PHASE IDLE; nothing else changes, BUF included. The order of events inside a
bit cell and a bracket is the spec's choice (D5, D6, D32; log 16), PHASE after a transaction on its own the
model's reading (log 11). -/
def Obligations.WriteTxnSendsTheEightPayloadBytes : Prop :=
  ∀ s : State, s.fault = 0 →
    exec .writeTxn s = .next { s with
      lines := { en := .released, clk := false, ddir := .output, dout := (s.readBuf 7).getLsbD 0 }
      sr := 0x00
      bitIdx := 0
      byteIdx := 7
      phase := .idle
      trace := s.trace ++ ([.dir .output, .en .asserted] ++ sendEvents 0x48 ++
        ([0, 1, 2, 3, 4, 5, 6, 7].flatMap fun k => sendEvents (s.readBuf k)) ++ [.en .released]) } ∧
    (writeEvents ([0, 1, 2, 3, 4, 5, 6, 7].map s.readBuf)).length = 219

/-- On a block that is not stuck, SHORT_READ_TXN completes: the trace gains 52 events, DIR(out), EN(asserted),
SEND_BYTE's events for 0x80, RECV_BYTE's events, EN(released); BUF[0] is the byte received and every other
byte of BUF reads as before; DDIR is in, SR the byte received, BIT_IDX 0, BYTE_IDX 0, PHASE IDLE; nothing else
changes. Holds for every value of the draws. The order of events inside a bit cell and a bracket is the spec's
choice (D5, D6, D32; log 16), PHASE after a transaction on its own the model's reading (log 11). -/
def Obligations.ShortReadTxnRefreshesBufZeroAlone : Prop :=
  ∀ s : State, s.fault = 0 →
    (∃ m, exec .shortReadTxn s = .next { s with
      lines := { en := .released, clk := false, ddir := .input, dout := false }
      sr := deviceByte s.draws
      bitIdx := 0
      byteIdx := 0
      phase := .idle
      buf := m
      draws := s.draws + 8
      trace := s.trace ++ ([.dir .output, .en .asserted] ++ sendEvents 0x80 ++ recvEvents s.draws ++
        [.en .released]) } ∧
      m.read 0 = deviceByte s.draws ∧ ∀ k : Offset, k ≠ 0 → m.read k = s.readBuf k) ∧
    (shortReadEvents s.draws).length = 52

/-- On a block that is not stuck, LONG_READ_TXN completes: the trace gains 427 events, DIR(out), EN(asserted),
SEND_BYTE's events for 0xC0, RECV_BYTE's events sixteen times, EN(released); BUF[k] is the k-th byte received
for every k; DDIR is in, SR the last byte received, BIT_IDX 0, BYTE_IDX 15, PHASE IDLE; nothing else changes.
Holds for every value of the draws. The order of events inside a bit cell and a bracket is the spec's choice
(D5, D6, D32; log 16), PHASE after a transaction on its own the model's reading (log 11). -/
def Obligations.LongReadTxnRefreshesAllSixteenBytes : Prop :=
  ∀ s : State, s.fault = 0 →
    (∃ m, exec .longReadTxn s = .next { s with
      lines := { en := .released, clk := false, ddir := .input, dout := false }
      sr := deviceByte (s.draws + 120)
      bitIdx := 0
      byteIdx := 15
      phase := .idle
      buf := m
      draws := s.draws + 128
      trace := s.trace ++ ([.dir .output, .en .asserted] ++ sendEvents 0xC0 ++
        ((List.range 16).flatMap fun k => recvEvents (s.draws + 8 * k)) ++ [.en .released]) } ∧
      ∀ k : Offset, m.read k = deviceByte (s.draws + 8 * k.val)) ∧
    (longReadEvents s.draws).length = 427

/-- On a block that is not stuck, each transaction completes, and its pulses, read one by one with the enable,
the direction and the bit on the line, are: for WRITE_TXN 72, asserted and out, 0x48 then BUF[0] to BUF[7];
for SHORT_READ_TXN 16, asserted, 0x80 out, then in the byte stored at BUF[0]; for LONG_READ_TXN 136, asserted,
0xC0 out, then in the bytes stored at BUF[0] to BUF[15]; every byte bit 7 down to bit 0. Holds for every value
of the draws. -/
def Obligations.WireFramesCarryTheirPulses : Prop :=
  ∀ s : State, s.fault = 0 →
    (∃ t events, exec .writeTxn s = .next t ∧ t.trace = s.trace ++ events ∧ pulses events = 72 ∧
      linePulses s.lines events = ((0x48 : Byte) :: [0, 1, 2, 3, 4, 5, 6, 7].map s.readBuf).flatMap
        fun b => (byteBits b).map fun v => (.asserted, .output, v)) ∧
    (∃ t events, exec .shortReadTxn s = .next t ∧ t.trace = s.trace ++ events ∧ pulses events = 16 ∧
      linePulses s.lines events = (byteBits 0x80).map (fun v => (.asserted, .output, v)) ++
        (byteBits (t.readBuf 0)).map fun v => (.asserted, .input, v)) ∧
    (∃ t events, exec .longReadTxn s = .next t ∧ t.trace = s.trace ++ events ∧ pulses events = 136 ∧
      linePulses s.lines events = (byteBits 0xC0).map (fun v => (.asserted, .output, v)) ++
        allOffsets.flatMap fun k => (byteBits (t.readBuf k)).map fun v => (.asserted, .input, v))

/-- For N staged bytes, N from 1 to 8, staging gives BUF[k] the k-th byte for k below N and 0x00 for N to 7,
leaves BUF[8..15], emits no event, sets PHASE to STAGE, and changes nothing else, whatever BUF held before. -/
def Obligations.StageZeroesThePayloadBeyondItsBytes : Prop :=
  ∀ (bytes : List Byte) (s : State), 1 ≤ bytes.length → bytes.length ≤ 8 →
    (∃ m, s.stage bytes = { s with phase := .stage, buf := m }) ∧
    (∀ k : Offset, (h : k.val < bytes.length) → (s.stage bytes).readBuf k = bytes[k.val]) ∧
    (∀ k : Offset, bytes.length ≤ k.val → k.val < 8 → (s.stage bytes).readBuf k = 0x00) ∧
    (∀ k : Offset, 8 ≤ k.val → (s.stage bytes).readBuf k = s.readBuf k)

/-- In every MODE, with operands that fit, POWER_UP completes: MODE is Func(setup mod 16), PWR Up(MODE), the
payload 01 setup audioOut 0 0 0 0 0 is sent, SETTLE(300000), and the read is long exactly when the low nibble
is 0xF. Every field is said (Ran): the trace of write, SETTLE and read, every byte of BUF, LINES, SR, the
sequencer, FAULT, draws; params, calls and ret are unchanged. The order of events inside a bit cell and a
bracket is the spec's choice (D5, D6, D32; log 16). The byte positions, the point where MODE is written and
the QLID settle are the spec's choices (D13, D22, D23; log 21). -/
def Obligations.PowerUpRecordsTheLowNibbleAndReadsByIt : Prop :=
  ∀ (setup audioOut : Nat) (s : State), s.fault = 0 → setup < 256 → audioOut < 256 →
    ∃ t, exec (.powerUp setup audioOut) s = .next t ∧
      Ran s t [0x01, byteOf setup, byteOf audioOut, 0x00, 0x00, 0x00, 0x00, 0x00] 300000
        (if setup % 16 = 15 then .long else .short) ∧
      t.mode = .func (BitVec.ofNat 4 (setup % 16)) ∧ t.pwr = .up (.func (BitVec.ofNat 4 (setup % 16)))

/-- In every MODE, POWER_DOWN completes: PWR is Down, MODE is unchanged, the payload 11 0 0 0 0 0 0 0 is sent,
SETTLE(300), short read. Every field is said (Ran): the trace of write, SETTLE and read, every byte of BUF,
LINES, SR, the sequencer, FAULT, draws; params, calls and ret are unchanged. The order of events inside a bit
cell and a bracket is the spec's choice (D5, D6, D32; log 16). That MODE keeps its value is the spec's reading
of a conflict (C2, D12). -/
def Obligations.PowerDownClearsThePowerRecordAlone : Prop :=
  ∀ s : State, s.fault = 0 →
    ∃ t, exec .powerDown s = .next t ∧
      Ran s t [0x11, 0x00, 0x00, 0x00, 0x00, 0x00, 0x00, 0x00] 300 .short ∧
      t.mode = s.mode ∧ t.pwr = .down

/-- In every MODE, GET_REV completes: the payload 10 0 0 0 0 0 0 0 is sent, SETTLE(300), long read; MODE and
PWR are unchanged. Every field is said (Ran): the trace of write, SETTLE and read, every byte of BUF, LINES,
SR, the sequencer, FAULT, draws; params, calls and ret are unchanged. The order of events inside a bit cell
and a bracket is the spec's choice (D5, D6, D32; log 16). -/
def Obligations.GetRevReadsALongResponse : Prop :=
  ∀ s : State, s.fault = 0 →
    Completes .getRev s [0x10, 0x00, 0x00, 0x00, 0x00, 0x00, 0x00, 0x00] 300 .long

/-- In every MODE, with operands that fit, SET_PROPERTY completes: the payload is 12 00, prop big-endian,
value big-endian, 00 00, SETTLE(10000), short read; MODE and PWR are unchanged. Every field is said (Ran): the
trace of write, SETTLE and read, every byte of BUF, LINES, SR, the sequencer, FAULT, draws; params, calls and
ret are unchanged. The order of events inside a bit cell and a bracket is the spec's choice (D5, D6, D32; log
16). That the settle is 10 ms is the spec's choice between two readings of the source (D14, C1; log 25). -/
def Obligations.SetPropertySendsBothWordsBigEndian : Prop :=
  ∀ (prop value : Nat) (s : State), s.fault = 0 → prop < 65536 → value < 65536 →
    Completes (.setProperty prop value) s
      [0x12, 0x00, highByte prop, lowByte prop, highByte value, lowByte value, 0x00, 0x00] 10000 .short

/-- In every MODE, with an operand that fits, GET_PROPERTY completes with payload 13 00 H(prop) L(prop) 0 0 0
0, SETTLE(300), short read; MODE and PWR are unchanged. Every field is said (Ran): the trace of write, SETTLE
and read, every byte of BUF, LINES, SR, the sequencer, FAULT, draws; params, calls and ret are unchanged. The
order of events inside a bit cell and a bracket is the spec's choice (D5, D6, D32; log 16). The layout is the
spec's choice (D19; log 21). -/
def Obligations.GetPropertySendsTheIdBigEndian : Prop :=
  ∀ (prop : Nat) (s : State), s.fault = 0 → prop < 65536 →
    Completes (.getProperty prop) s
      [0x13, 0x00, highByte prop, lowByte prop, 0x00, 0x00, 0x00, 0x00] 300 .short

/-- In every MODE, GET_INT_STATUS completes: the payload 14 0 0 0 0 0 0 0 is sent, SETTLE(300), short read;
MODE and PWR are unchanged. Every field is said (Ran): the trace of write, SETTLE and read, every byte of BUF,
LINES, SR, the sequencer, FAULT, draws; params, calls and ret are unchanged. The order of events inside a bit
cell and a bracket is the spec's choice (D5, D6, D32; log 16). -/
def Obligations.GetIntStatusRefreshesTheStatusByte : Prop :=
  ∀ s : State, s.fault = 0 →
    Completes .getIntStatus s [0x14, 0x00, 0x00, 0x00, 0x00, 0x00, 0x00, 0x00] 300 .short

/-- With MODE = FM, operands that fit, and an antcap of at most 0xFF or the policy truncate, FM_TUNE_FREQ
completes: payload 20 setup H(freq) L(freq) L(antcap) 0 0 0, SETTLE(120000), short read; MODE and PWR are
unchanged. Every field is said (Ran): the trace of write, SETTLE and read, every byte of BUF, LINES, SR, the
sequencer, FAULT, draws; params, calls and ret are unchanged. The order of events inside a bit cell and a
bracket is the spec's choice (D5, D6, D32; log 16). Positions and byte order are the spec's choice (D15; log
21), the policy an open parameter (D16; log 7). -/
def Obligations.FmTuneFreqSendsOneAntcapByte : Prop :=
  ∀ (setup freq antcap : Nat) (s : State), s.fault = 0 → InFm s → setup < 256 → freq < 65536 →
    antcap < 65536 → (antcap ≤ 255 ∨ s.params.fmAntcapPolicy = .truncate) →
    Completes (.fmTuneFreq setup freq antcap) s
      [0x20, byteOf setup, highByte freq, lowByte freq, lowByte antcap, 0x00, 0x00, 0x00] 120000 .short

/-- With MODE = AM and operands that fit, AM_TUNE_FREQ completes: payload 40 (setup mod 2) H(freq) L(freq)
H(antcap) L(antcap) 0 0, SETTLE(200000), short read; MODE and PWR are unchanged; every antcap is accepted.
Every field is said (Ran): the trace of write, SETTLE and read, every byte of BUF, LINES, SR, the sequencer,
FAULT, draws; params, calls and ret are unchanged. The order of events inside a bit cell and a bracket is the
spec's choice (D5, D6, D32; log 16). Positions, byte order and the kept bit are the spec's choices (D15, D17;
log 21). -/
def Obligations.AmTuneFreqMasksSetupAndSendsTwoAntcapBytes : Prop :=
  ∀ (setup freq antcap : Nat) (s : State), s.fault = 0 → InAm s → setup < 256 → freq < 65536 →
    antcap < 65536 →
    Completes (.amTuneFreq setup freq antcap) s
      [0x40, byteOf (setup % 2), highByte freq, lowByte freq, highByte antcap, lowByte antcap, 0x00, 0x00]
      200000 .short

/-- With MODE = FM and operands that fit: under SEEK_FM_LAYOUT = antcap and an antcap of at most 0xFF (or
truncate) the payload is 21 arg1 0 0 L(antcap) 0 0 0; under arg1_only it is 21 arg1 0 0 0 0 0 0 for every
antcap; SETTLE(300), short read; MODE and PWR are unchanged. Every field is said (Ran): the trace of write,
SETTLE and read, every byte of BUF, LINES, SR, the sequencer, FAULT, draws; params, calls and ret are
unchanged. The order of events inside a bit cell and a bracket is the spec's choice (D5, D6, D32; log 16).
Both layouts are the spec's choice (D18; log 21); that arg1_only ignores antcap rather than refusing it is
DEDUCED (log 10). -/
def Obligations.FmSeekStartFollowsItsLayout : Prop :=
  ∀ (arg1 antcap : Nat) (s : State), s.fault = 0 → InFm s → arg1 < 256 → antcap < 65536 →
    (s.params.seekFmLayout = .antcap → (antcap ≤ 255 ∨ s.params.fmAntcapPolicy = .truncate) →
      Completes (.fmSeekStart arg1 antcap) s
        [0x21, byteOf arg1, 0x00, 0x00, lowByte antcap, 0x00, 0x00, 0x00] 300 .short) ∧
    (s.params.seekFmLayout = .arg1Only →
      Completes (.fmSeekStart arg1 antcap) s
        [0x21, byteOf arg1, 0x00, 0x00, 0x00, 0x00, 0x00, 0x00] 300 .short)

/-- With MODE = AM and operands that fit, AM_SEEK_START completes with payload 41 arg1 0 0 H(antcap) L(antcap)
0 0, SETTLE(300), short read; MODE and PWR are unchanged. Every field is said (Ran): the trace of write,
SETTLE and read, every byte of BUF, LINES, SR, the sequencer, FAULT, draws; params, calls and ret are
unchanged. The order of events inside a bit cell and a bracket is the spec's choice (D5, D6, D32; log 16). The
layout is the spec's choice (D18; log 21). -/
def Obligations.AmSeekStartSendsTwoAntcapBytes : Prop :=
  ∀ (arg1 antcap : Nat) (s : State), s.fault = 0 → InAm s → arg1 < 256 → antcap < 65536 →
    Completes (.amSeekStart arg1 antcap) s
      [0x41, byteOf arg1, 0x00, 0x00, highByte antcap, lowByte antcap, 0x00, 0x00] 300 .short

/-- With an operand that fits, FM_TUNE_STATUS (22) and FM_RSQ_STATUS (23) complete with MODE = FM,
AM_TUNE_STATUS (42) and AM_RSQ_STATUS (43) with MODE = AM: payload the opcode, arg1 and zeros, SETTLE(300),
long read; MODE and PWR are unchanged. Every field is said (Ran): the trace of write, SETTLE and read, every
byte of BUF, LINES, SR, the sequencer, FAULT, draws; params, calls and ret are unchanged. The order of events
inside a bit cell and a bracket is the spec's choice (D5, D6, D32; log 16). The place and width of arg1 are
the spec's choice (D21; log 21). -/
def Obligations.TuneAndRsqStatusReadALongResponse : Prop :=
  ∀ (arg1 : Nat) (s : State), s.fault = 0 → arg1 < 256 →
    (InFm s →
      Completes (.fmTuneStatus arg1) s [0x22, byteOf arg1, 0x00, 0x00, 0x00, 0x00, 0x00, 0x00] 300 .long ∧
      Completes (.fmRsqStatus arg1) s [0x23, byteOf arg1, 0x00, 0x00, 0x00, 0x00, 0x00, 0x00] 300 .long) ∧
    (InAm s →
      Completes (.amTuneStatus arg1) s [0x42, byteOf arg1, 0x00, 0x00, 0x00, 0x00, 0x00, 0x00] 300 .long ∧
      Completes (.amRsqStatus arg1) s [0x43, byteOf arg1, 0x00, 0x00, 0x00, 0x00, 0x00, 0x00] 300 .long)

/-- In every MODE, AM and PoweredDown included, with an operand that fits, FM_RDS_STATUS completes with
payload 24 arg1 and zeros, SETTLE(300), long read; MODE and PWR are unchanged. Every field is said (Ran): the
trace of write, SETTLE and read, every byte of BUF, LINES, SR, the sequencer, FAULT, draws; params, calls and
ret are unchanged. The order of events inside a bit cell and a bracket is the spec's choice (D5, D6, D32; log
16). The place and width of arg1 are the spec's choice (D21; log 21). -/
def Obligations.FmRdsStatusRunsInEveryMode : Prop :=
  ∀ (arg1 : Nat) (s : State), s.fault = 0 → arg1 < 256 →
    Completes (.fmRdsStatus arg1) s
      [0x24, byteOf arg1, 0x00, 0x00, 0x00, 0x00, 0x00, 0x00] 300 .long

/-- FM_AGC_STATUS completes with MODE = FM (payload 27 and zeros), AM_AGC_STATUS with MODE = AM (payload 47
and zeros), SETTLE(300), long read; MODE and PWR are unchanged. Every field is said (Ran): the trace of write,
SETTLE and read, every byte of BUF, LINES, SR, the sequencer, FAULT, draws; params, calls and ret are
unchanged. The order of events inside a bit cell and a bracket is the spec's choice (D5, D6, D32; log 16). -/
def Obligations.AgcStatusReadsALongResponse : Prop :=
  ∀ s : State, s.fault = 0 →
    (InFm s → Completes .fmAgcStatus s [0x27, 0x00, 0x00, 0x00, 0x00, 0x00, 0x00, 0x00] 300 .long) ∧
    (InAm s → Completes .amAgcStatus s [0x47, 0x00, 0x00, 0x00, 0x00, 0x00, 0x00, 0x00] 300 .long)

/-- With operands that fit, FM_AGC_OVERRIDE completes with MODE = FM (payload 28 rfAgcDis lnaGain and zeros)
and AM_AGC_OVERRIDE with MODE = AM (payload 48 rfAgcDis lnaGain and zeros), SETTLE(300), short read; MODE and
PWR are unchanged. Every field is said (Ran): the trace of write, SETTLE and read, every byte of BUF, LINES,
SR, the sequencer, FAULT, draws; params, calls and ret are unchanged. The order of events inside a bit cell
and a bracket is the spec's choice (D5, D6, D32; log 16). Argument order and widths are the spec's choice
(D20; log 21). -/
def Obligations.AgcOverrideSendsBothArguments : Prop :=
  ∀ (rfAgcDis lnaGain : Nat) (s : State), s.fault = 0 → rfAgcDis < 256 → lnaGain < 256 →
    (InFm s → Completes (.fmAgcOverride rfAgcDis lnaGain) s
      [0x28, byteOf rfAgcDis, byteOf lnaGain, 0x00, 0x00, 0x00, 0x00, 0x00] 300 .short) ∧
    (InAm s → Completes (.amAgcOverride rfAgcDis lnaGain) s
      [0x48, byteOf rfAgcDis, byteOf lnaGain, 0x00, 0x00, 0x00, 0x00, 0x00] 300 .short)

/-- In every MODE, with an operand that fits, GPIO_CTL completes with payload 80 arg1 and zeros and GPIO_SET
with payload 81 arg1 and zeros, SETTLE(300), short read; MODE and PWR are unchanged. Every field is said
(Ran): the trace of write, SETTLE and read, every byte of BUF, LINES, SR, the sequencer, FAULT, draws; params,
calls and ret are unchanged. The order of events inside a bit cell and a bracket is the spec's choice (D5, D6,
D32; log 16). The place and width of arg1 are the spec's choice (D21; log 21). -/
def Obligations.GpioCommandsRunInEveryMode : Prop :=
  ∀ (arg1 : Nat) (s : State), s.fault = 0 → arg1 < 256 →
    Completes (.gpioCtl arg1) s
      [0x80, byteOf arg1, 0x00, 0x00, 0x00, 0x00, 0x00, 0x00] 300 .short ∧
    Completes (.gpioSet arg1) s
      [0x81, byteOf arg1, 0x00, 0x00, 0x00, 0x00, 0x00, 0x00] 300 .short

/-- On a block that is not stuck, statusByte, rssi and snr complete: the value handed back is BUF[0], BUF[4],
BUF[5] as a u8, and no field of the block's changes (ret is the model's carrier of the returned value, log 6).
-/
def Obligations.ByteAccessorsReturnTheirBytes : Prop :=
  ∀ s : State, s.fault = 0 →
    exec .statusByte s = .next { s with ret := some (.u8 (s.readBuf 0)) } ∧
    exec .rssi s = .next { s with ret := some (.u8 (s.readBuf 4)) } ∧
    exec .snr s = .next { s with ret := some (.u8 (s.readBuf 5)) }

/-- On a block that is not stuck the five flag accessors complete with bits 7, 6, 3, 2 and 0 of BUF[0] as
Bools, and no field of the block's changes. The bit positions are the spec's choice from general knowledge
(D24; log 22). -/
def Obligations.FlagAccessorsReturnStatusBits : Prop :=
  ∀ s : State, s.fault = 0 →
    exec .cts s = .next { s with ret := some (.flag ((s.readBuf 0).toNat.testBit 7)) } ∧
    exec .err s = .next { s with ret := some (.flag ((s.readBuf 0).toNat.testBit 6)) } ∧
    exec .rsqInt s = .next { s with ret := some (.flag ((s.readBuf 0).toNat.testBit 3)) } ∧
    exec .rdsInt s = .next { s with ret := some (.flag ((s.readBuf 0).toNat.testBit 2)) } ∧
    exec .stcInt s = .next { s with ret := some (.flag ((s.readBuf 0).toNat.testBit 0)) }

/-- On a block that is not stuck, frequency completes with the u16 whose value is 256 times BUF[2] plus
BUF[3], and no field of the block's changes; after the run of a command with a short response that is 256
times staged byte 2 plus staged byte 3. -/
def Obligations.FrequencyReadsBytesTwoAndThreeBigEndian : Prop :=
  (∀ s : State, s.fault = 0 →
    ∃ w : Half, exec .frequency s = .next { s with ret := some (.u16 w) } ∧
      w.toNat = 256 * (s.readBuf 2).toNat + (s.readBuf 3).toNat) ∧
  (∀ (s t : State) (b0 b1 b2 b3 b4 b5 b6 b7 : Byte) (us : Nat), s.fault = 0 →
    Ran s t [b0, b1, b2, b3, b4, b5, b6, b7] us .short →
    ∃ w : Half, exec .frequency t = .next { t with ret := some (.u16 w) } ∧
      w.toNat = 256 * b2.toNat + b3.toNat)

/-- On a block that is not stuck: with MODE = FM, antcap completes with the u16 of value BUF[7]; with MODE =
AM, with 256 times BUF[6] plus BUF[7]; with any other MODE it sets FAULT bit 0. Nothing else changes. That
MODE chooses, and the fault, are the spec's choices (D34, D11; log 24). -/
def Obligations.AntcapWidthFollowsMode : Prop :=
  ∀ s : State, s.fault = 0 →
    (InFm s → ∃ w : Half, exec .antcap s = .next { s with ret := some (.u16 w) } ∧
      w.toNat = (s.readBuf 7).toNat) ∧
    (InAm s → ∃ w : Half, exec .antcap s = .next { s with ret := some (.u16 w) } ∧
      w.toNat = 256 * (s.readBuf 6).toNat + (s.readBuf 7).toNat) ∧
    (InNeither s → exec .antcap s = .next { s with fault := 1 })

/-- On a block that is not stuck, fmStereo completes with bit 7 of BUF[3] and stereoBlend with the 7-bit value
BUF[3] mod 128; no field of the block's changes. The split is the spec's choice (D25; log 23). -/
def Obligations.StereoAccessorsSplitByteThree : Prop :=
  ∀ s : State, s.fault = 0 →
    exec .fmStereo s = .next { s with ret := some (.flag (decide (128 ≤ (s.readBuf 3).toNat))) } ∧
    ∃ v : BitVec 7, exec .stereoBlend s = .next { s with ret := some (.u7 v) } ∧
      v.toNat = (s.readBuf 3).toNat % 128

/-- On a block that is not stuck, freqOffset completes with the 16-bit word whose signed value is that of
BUF[7], from -128 to 127, and no field of the block's changes. -/
def Obligations.FreqOffsetIsTheSignedByteSeven : Prop :=
  ∀ s : State, s.fault = 0 →
    ∃ w : Half, exec .freqOffset s = .next { s with ret := some (.s16 w) } ∧
      w.toInt = (s.readBuf 7).toInt ∧ -128 ≤ w.toInt ∧ w.toInt ≤ 127

/-- If two blocks that are not stuck agree on every byte of BUF and, for antcap alone, on MODE and the open
parameters, an accessor run on both hands back the same value and the same FAULT; and on each it changes no
field but ret, or (antcap in an undefined MODE) sets FAULT bit 0 alone. That antcap reads MODE, and the fault,
are the spec's choices (D34, D11; log 24, 25). -/
def Obligations.AccessorsReadOnlyBufAndMode : Prop :=
  ∀ (i : Instr) (s s' : State), isAccessor i = true → s.fault = 0 → s'.fault = 0 →
    (∀ k : Offset, s.readBuf k = s'.readBuf k) →
    (i = .antcap → s.mode = s'.mode ∧ s.params = s'.params) →
    (∃ v, exec i s = .next { s with ret := some v } ∧ exec i s' = .next { s' with ret := some v }) ∨
    (i = .antcap ∧ exec i s = .next { s with fault := 1 } ∧ exec i s' = .next { s' with fault := 1 })

/-- For each of the twelve mode-dependent variants with operands that fit, on a block that is not stuck whose
MODE is neither FM nor AM, the run answers the same state with FAULT = 0b01. The fault is the spec's choice
(D11). -/
def Obligations.ModeDependentCommandsFaultOutsideFmAndAm : Prop :=
  ∀ (i : Instr) (s : State), s.fault = 0 → InNeither s → (neededBand i).isSome = true →
    i.wellFormed = true → exec i s = .next { s with fault := 1 }

/-- For every instruction that is not well formed, on a block that is not stuck, whatever MODE is, the run
answers the same state with FAULT = 0b10: the width check precedes the MODE check. The refusal is the spec's
choice (D28). -/
def Obligations.OperandsTooWideAreRefusedFirst : Prop :=
  ∀ (i : Instr) (s : State), s.fault = 0 → i.wellFormed = false → exec i s = .next { s with fault := 2 }

/-- On a block that is not stuck, a well-formed FM variant run while MODE = AM, or AM variant run while MODE =
FM, answers the same state with FAULT = 0b10. The refusal is the spec's choice (D28, D29). -/
def Obligations.VariantsAgainstModeAreRefused : Prop :=
  ∀ (i : Instr) (s : State), s.fault = 0 → i.wellFormed = true →
    (neededBand i = some .fm → InAm s → exec i s = .next { s with fault := 2 }) ∧
    (neededBand i = some .am → InFm s → s.params.wf = true → exec i s = .next { s with fault := 2 })

/-- On a block that is not stuck with MODE = FM and FM_ANTCAP_POLICY = refuse, FM_TUNE_FREQ with fitting
operands and antcap above 0xFF answers the same state with FAULT = 0b10; so does FM_SEEK_START under
SEEK_FM_LAYOUT = antcap. The policy is the spec's default (D16; log 7). -/
def Obligations.FmAntcapAboveOneByteIsRefused : Prop :=
  ∀ (setup freq antcap : Nat) (s : State), s.fault = 0 → InFm s → setup < 256 → freq < 65536 →
    255 < antcap → antcap < 65536 → s.params.fmAntcapPolicy = .refuse →
    exec (.fmTuneFreq setup freq antcap) s = .next { s with fault := 2 } ∧
    (s.params.seekFmLayout = .antcap →
      exec (.fmSeekStart setup antcap) s = .next { s with fault := 2 })

/-- For every instruction, exec on a state with FAULT non-zero answers the fault stuck; and step does too
unless the next request is a reset. That such a block is stuck is the spec's choice (D11). -/
def Obligations.FaultedBlocksTakeNoStep : Prop :=
  (∀ (i : Instr) (s : State), s.fault ≠ 0 → exec i s = .fault .stuck) ∧
  (∀ s : State, s.fault ≠ 0 → s.calls.head? ≠ some .reset → step s = .fault .stuck)

/-- For every instruction: if it answers a next state with FAULT non-zero, that state differs from the one
before in FAULT alone, which holds exactly one bit, and it was 0 before. The two faults are the spec's choice
(D11, D28). -/
def Obligations.FaultsArePrecise : Prop :=
  ∀ (i : Instr) (s t : State), exec i s = .next t → t.fault ≠ 0 →
    s.fault = 0 ∧ t = { s with fault := t.fault } ∧ (t.fault = 1 ∨ t.fault = 2)

/-- If the next request is a reset, the step answers State.reset with the draw counter, the open parameters
and the requests still to come kept. What a reset keeps of the model's own fields is the model's choice (log
5, 7, 19). -/
def Obligations.ResetStartsANewRun : Prop :=
  ∀ (s : State) (rest : List Request), s.calls = .reset :: rest →
    step s = .next { State.reset with draws := s.draws, params := s.params, calls := rest }

/-- If the next request is encoded bytes that decode to a command i, then step is exec of i on the state with
that request taken off and ret cleared; the state made by withFetchWord has the table word's bytes as its next
request; and with no request pending a block that is not stuck answers the same state. Requests, and that
waiting is a step, are the model's (log 2, 3, 20). -/
def Obligations.StepRunsTheDecodedInstruction : Prop :=
  (∀ (s : State) (bytes : List Byte) (rest : List Request) (i : Instr),
    s.calls = .encoded bytes :: rest → decode s.params bytes = .ok i → i.isCommand = true →
    step s = exec i { s with calls := rest, ret := none }) ∧
  (∀ (s : State) (nbits w : Nat),
    s.withFetchWord nbits w = { s with calls := .encoded (tableBytes nbits w) :: s.calls }) ∧
  (∀ s : State, s.calls = [] → s.fault = 0 → step s = .next s)

/-- If the next request is a call that names i in the present MODE, or a line of text that reads as such a
call, then step is exec of i on the state with that request taken off and ret cleared. Each of the 9
mode-independent mnemonics, the 12 variant mnemonics and the 13 accessor names, with its operands, names in
every MODE the instruction of that name with the operands in that order. The spellings are the spec's choice
(D29, D33; log 25), requests and the reading of a line the model's (log 2, 13). -/
def Obligations.StepRunsTheCalledInstruction : Prop :=
  (∀ (s : State) (text name : String) (ops : List Nat) (rest : List Request) (i : Instr),
    instrOfCall s.params s.mode name ops = some i →
    (s.calls = .call name ops :: rest → step s = exec i { s with calls := rest, ret := none }) ∧
    (s.calls = .line text :: rest → readLine text = some (name, ops) →
      step s = exec i { s with calls := rest, ret := none })) ∧
  (∀ (a b c : Nat) (s : State) (rest : List Request), ∀ e ∈ plainCalls a b c,
    (s.calls = .call e.1 e.2.1 :: rest → step s = exec e.2.2 { s with calls := rest, ret := none }) ∧
    (∀ text, s.calls = .line text :: rest → readLine text = some (e.1, e.2.1) →
      step s = exec e.2.2 { s with calls := rest, ret := none }))

/-- For each of TUNE_FREQ, SEEK_START, TUNE_STATUS, RSQ_STATUS, AGC_STATUS and AGC_OVERRIDE, called with its
operands or written as a line of text that reads so: with MODE = FM step runs the FM variant, with MODE = AM
the AM variant, and with any other MODE, a block not stuck and operands that fit, step sets FAULT = 0b01; in
every MODE, on a block not stuck, an operand that does not fit sets FAULT = 0b10; either changes nothing else
but taking the request off. The fault and the refusal are the spec's choices (D11, D28; log 25), the reading
of a line the model's (log 13). -/
def Obligations.CallerMnemonicsResolveByMode : Prop :=
  ∀ (a b c : Nat) (s : State) (rest : List Request),
    ∀ e ∈ bandCalls a b c,
    (s.calls = .call e.1 e.2.1 :: rest ∨
      ∃ text, s.calls = .line text :: rest ∧ readLine text = some (e.1, e.2.1)) →
    (InFm s → step s = exec e.2.2.1 { s with calls := rest, ret := none }) ∧
    (InAm s → step s = exec e.2.2.2 { s with calls := rest, ret := none }) ∧
    (InNeither s → s.fault = 0 → e.2.2.1.wellFormed = true →
      step s = .next { s with calls := rest, ret := none, fault := 1 }) ∧
    (s.fault = 0 → e.2.2.1.wellFormed = false →
      step s = .next { s with calls := rest, ret := none, fault := 2 })

/-- On a block that is not stuck, each of these gives the same state with FAULT = 0b10 and the request taken
off: a call, or a line of text that reads as a call, whose name is none of the 40 spellings (a
micro-operation's name among them) or is a spelling with another number of operands than it takes; a line of
text that does not read; encoded bytes that the decoder rejects; and encoded bytes that decode to a
transaction. The refusal is the spec's choice (D28; log 25); the number of operands, the reading of a line and
requests for bytes are the model's readings (log 12, 13, 3). -/
def Obligations.RequestsThatNameNothingAreRefused : Prop :=
  ∀ (s : State) (rest : List Request), s.fault = 0 →
    (∀ (name : String) (ops : List Nat), name ∉ spellings → s.calls = .call name ops :: rest →
      step s = .next { s with calls := rest, ret := none, fault := 2 }) ∧
    (∀ (ops : List Nat), ∀ e ∈ arities, ops.length ≠ e.2 → s.calls = .call e.1 ops :: rest →
      step s = .next { s with calls := rest, ret := none, fault := 2 }) ∧
    (∀ text : String, readLine text = none → s.calls = .line text :: rest →
      step s = .next { s with calls := rest, ret := none, fault := 2 }) ∧
    (∀ (text name : String) (ops : List Nat), readLine text = some (name, ops) →
      (name ∉ spellings ∨ ∃ e ∈ arities, e.1 = name ∧ ops.length ≠ e.2) → s.calls = .line text :: rest →
      step s = .next { s with calls := rest, ret := none, fault := 2 }) ∧
    (∀ (bytes : List Byte) (e : DecodeError), decode s.params bytes = .error e →
      s.calls = .encoded bytes :: rest →
      step s = .next { s with calls := rest, ret := none, fault := 2 }) ∧
    (∀ (bytes : List Byte) (i : Instr), decode s.params bytes = .ok i → i.isCommand = false →
      s.calls = .encoded bytes :: rest →
      step s = .next { s with calls := rest, ret := none, fault := 2 })

/-- For every value of the open parameters and every well-formed instruction that has an encoding, with every
operand at every value: decode of encode is the instruction as the wire keeps it. It is the instruction itself
but for the AM tune setup (one bit), the FM antcap (one byte) and the arg1_only seek antcap. Layouts marked
with a dagger are the spec's choices (log 21). -/
def Obligations.DecodeOfEncodeIsTheInstructionOnTheWire : Prop :=
  ∀ (p : Params) (i : Instr), i.wellFormed = true → i.hasEncoding = true →
    decode p (encode p i) = .ok (i.onWire p)

/-- For every value of the open parameters and any bytes: if they decode to i, then i is well formed, i is as
the wire keeps it, and encoding i gives the same bytes. So no two payloads decode to one instruction and no
bit is dropped. Strict rejection of other bytes is DEDUCED (log 15). -/
def Obligations.EncodeOfDecodeIsTheBytes : Prop :=
  ∀ (p : Params) (bytes : List Byte) (i : Instr), decode p bytes = .ok i →
    encode p i = bytes ∧ i.wellFormed = true ∧ i.onWire p = i

/-- One byte decodes to WRITE_TXN if it is 0x48, to SHORT_READ_TXN if 0x80, to LONG_READ_TXN if 0xC0, and to
nothing otherwise, for every value of the open parameters. -/
def Obligations.ControlBytesAreThreeWholeValues : Prop :=
  ∀ (p : Params) (c : Byte),
    decode p [c] = if c = 0x48 then .ok .writeTxn else if c = 0x80 then .ok .shortReadTxn
      else if c = 0xC0 then .ok .longReadTxn else .error .unknownControl

/-- For every value of the open parameters: eight bytes whose first is none of the 21 opcodes are rejected as
an unknown opcode, and bytes of any length but 1 and 8 are rejected as of a bad length. The treatment is the
spec's choice (D28; log 15). -/
def Obligations.OtherOpcodesAreRejected : Prop :=
  ∀ (p : Params) (bytes : List Byte),
    (∀ op rest, bytes = op :: rest → rest.length = 7 → op ∉ opcodes →
      decode p bytes = .error .unknownOpcode) ∧
    (bytes.length ≠ 1 → bytes.length ≠ 8 → decode p bytes = .error .badLength)

/-- Under the default parameters: 01 10 05, 12 00 11 00 00 02, 20 00 27 06, 40 01 03 E8 01 23, 21 0C, 48, 80
0E, each with its zeros, and the control byte C0 decode to the commands of the spec's vectors G1, G9, G13,
G15, G17, G28, G29 and to LONG_READ_TXN. The byte positions of Power Up, both tunes, the seek, AGC override
and GPIO are the spec's choices (D15, D17, D18, D20, D21, D23; log 21). -/
def Obligations.WrittenOutPayloadsDecode : Prop :=
  decode Params.default [0x01, 0x10, 0x05, 0x00, 0x00, 0x00, 0x00, 0x00] = .ok (.powerUp 0x10 0x05) ∧
  decode Params.default [0x12, 0x00, 0x11, 0x00, 0x00, 0x02, 0x00, 0x00] =
    .ok (.setProperty 0x1100 0x0002) ∧
  decode Params.default [0x20, 0x00, 0x27, 0x06, 0x00, 0x00, 0x00, 0x00] = .ok (.fmTuneFreq 0 0x2706 0) ∧
  decode Params.default [0x40, 0x01, 0x03, 0xE8, 0x01, 0x23, 0x00, 0x00] =
    .ok (.amTuneFreq 1 0x03E8 0x0123) ∧
  decode Params.default [0x21, 0x0C, 0x00, 0x00, 0x00, 0x00, 0x00, 0x00] = .ok (.fmSeekStart 0x0C 0) ∧
  decode Params.default [0x48, 0x00, 0x00, 0x00, 0x00, 0x00, 0x00, 0x00] = .ok (.amAgcOverride 0 0) ∧
  decode Params.default [0x80, 0x0E, 0x00, 0x00, 0x00, 0x00, 0x00, 0x00] = .ok (.gpioCtl 0x0E) ∧
  decode Params.default [0xC0] = .ok .longReadTxn

/-- For every command that passes admission (it answers a next state with FAULT 0): reading the data line at
each clock pulse the initiator drives, over the events the command appended, gives MSB first the byte 0x48,
the eight bytes of the command's encoding, and the control byte 0x80 or 0xC0 of its read, whatever BUF held
before. And every step that answers a next state and whose request is not a reset appends no event, or events
that so read give 0x48, one of the 21 opcodes, seven more bytes, and 0x80 or 0xC0: no other control byte and
no other opcode is ever emitted. Reading at the rising edge uses D5 (log 16). -/
def Obligations.TheWireCarriesTheEncodedCommand : Prop :=
  (∀ (i : Instr) (s t : State), i.isCommand = true → exec i s = .next t → t.fault = 0 →
    ∃ events, t.trace = s.trace ++ events ∧
      ∃ ctrl, (ctrl = 0x80 ∨ ctrl = 0xC0) ∧
        wireBits s.lines events = ([0x48] ++ encode s.params i ++ [ctrl]).flatMap byteBits) ∧
  (∀ s t : State, step s = .next t → s.calls.head? ≠ some .reset →
    t.trace = s.trace ∨
    ∃ events op args ctrl, t.trace = s.trace ++ events ∧ op ∈ opcodes ∧ args.length = 7 ∧
      (ctrl = 0x80 ∨ ctrl = 0xC0) ∧
      wireBits s.lines events = ([0x48, op] ++ args ++ [ctrl]).flatMap byteBits)

/-- For every command that passes admission, the events it appends number 272 with 72 + 16 clock pulses (a
short response) or 647 with 72 + 136 clock pulses (a long response). That redundant calls count is D2. -/
def Obligations.CommandsEmitOneOfTwoTraceLengths : Prop :=
  ∀ (i : Instr) (s t : State), i.isCommand = true → exec i s = .next t → t.fault = 0 →
    ∃ events, t.trace = s.trace ++ events ∧
      ((events.length = 272 ∧ pulses events = 72 + 16) ∨
       (events.length = 647 ∧ pulses events = 72 + 136))

/-- For every command that passes admission and all open durations: the least times its events ask for, added
up, are 2 T_EN_LEAD + 2 T_EN_LAG + 80 C + T_TURN + 8 R (short) or 128 R (long) + the settle it emits, in
nanoseconds. The counting of each interval is the model's reading of the formula (log 17). -/
def Obligations.CommandTimeHasItsLowerBound : Prop :=
  ∀ (tm : BitTiming) (i : Instr) (s t : State), i.isCommand = true → exec i s = .next t → t.fault = 0 →
    ∃ events us r, t.trace = s.trace ++ events ∧ Event.settle us ∈ events ∧
      events.length = (match r with | Resp.short => 272 | Resp.long => 647) ∧
      traceTime tm s.lines events =
        2 * tm.tEnLead + 2 * tm.tEnLag + 80 * (tm.tSetup + tm.tHigh + tm.tLow) + tm.tTurn +
          (match r with | Resp.short => 8 | Resp.long => 128) * (tm.tHigh + tm.tLow) + 1000 * us

/-- For every starting level and every trace: the waveform is a sublist of the trace; the empty trace's is
empty, and one more event at the end of a trace adds itself to the waveform if it is a SETTLE or a line event
that changes a level at the levels the trace ends at, and adds nothing otherwise (inWaveform: a SAMPLE, or a
line event that repeats its level). It ends at the levels the trace ends at, holds no SAMPLE event, and taking
the waveform again changes nothing. -/
def Obligations.WaveformsRepeatNoLevel : Prop :=
  ∀ (l : Lines) (tr : List Event),
    (waveform l tr).Sublist tr ∧ waveform l [] = [] ∧
    (∀ e, waveform l (tr ++ [e]) = waveform l tr ++ if inWaveform (l.replay tr) e then [e] else []) ∧
    (∀ (m : Lines) (e : Event), inWaveform m e = true ↔ (∃ us, e = .settle us) ∨ m.after e ≠ m) ∧
    l.replay (waveform l tr) = l.replay tr ∧ (∀ b, Event.sample b ∉ waveform l tr) ∧
    waveform l (waveform l tr) = waveform l tr

/-- From every state whose BUF is in canonical form (offsets rising and below 16, no listed zero), every step
that answers a next state leaves it so. The form is the model's (log 9). -/
def Obligations.StepKeepsBufCanonical : Prop :=
  ∀ s t : State, BufCanonical s → step s = .next t → BufCanonical t

/-- From every state with EN released, CLK 0, PHASE IDLE and BIT_IDX 0, every step that answers a next state,
whatever the request, leaves them so: a command's transactions release the enable on every path, and no
request runs a transaction on its own (log 3), so PHASE is the IDLE that ends EXEC and does not rest on log
11. The clock's rest level is the spec's choice (D4; log 16), and so are PHASE and BIT_IDX and their reset
values (D37; log 8). -/
def Obligations.StepKeepsTheBusAtRest : Prop :=
  ∀ s t : State, AtRest s → step s = .next t → AtRest t

/-- The invariant: replaying TRACE from the reset levels gives LINES; in TRACE every clock pulse lies inside
an enable bracket, the enable changes with the clock low, the initiator takes the data line back only while
the enable is released, changes data only while the line is its own and the clock is low, samples only a
released line inside a pulse, and settles only outside brackets; and the bus is at rest (AtRest). Every step
that answers a next state, whatever the request, keeps it. That data changes with the clock low, where in the
pulse the sample falls, and when the line is taken back are the spec's choices (D5, D6, D32; log 16), as are
the clock's rest level (D4; log 16), the reset levels (D26; log 8) and PHASE (D37; log 8); no request runs a
transaction on its own (log 3), so PHASE does not rest on log 11. -/
def Obligations.StepKeepsTheLineDiscipline : Prop :=
  ∀ s t : State, TraceDisciplined s → step s = .next t → TraceDisciplined t

/-- From every state whose FAULT is 0, 0b01 or 0b10, every step that answers a next state leaves it one of
them. -/
def Obligations.StepKeepsOneFaultAtMost : Prop :=
  ∀ s t : State, OneFaultAtMost s → step s = .next t → OneFaultAtMost t

/-- From every state in which PWR is Down or is Up(MODE) with MODE not PoweredDown, every step that answers a
next state leaves that so. -/
def Obligations.StepKeepsPowerMatchingMode : Prop :=
  ∀ s t : State, PowerMatchesMode s → step s = .next t → PowerMatchesMode t

/-- State.reset has BUF canonical, the bus at rest, TRACE disciplined and accounting for LINES, at most one
FAULT bit, and PWR matching MODE. The reset values are the spec's choices (log 8). -/
def Obligations.ResetMeetsTheInvariants : Prop :=
  BufCanonical State.reset ∧ AtRest State.reset ∧ TraceDisciplined State.reset ∧
  OneFaultAtMost State.reset ∧ PowerMatchesMode State.reset

/-- For every instruction that answers a next state: MODE is unchanged unless it is POWER_UP, which leaves
Func of the low nibble of setup; PWR is unchanged unless it is POWER_UP, which leaves Up of that MODE, or
POWER_DOWN, which leaves Down. That POWER_DOWN leaves MODE, and PWR itself, are the spec's reading of a
conflict (C2, D12; log 25). -/
def Obligations.OnlyPowerUpWritesMode : Prop :=
  ∀ (i : Instr) (s t : State), exec i s = .next t →
    (t.mode = s.mode ∨
      ∃ setup audioOut, i = .powerUp setup audioOut ∧ t.mode = .func (BitVec.ofNat 4 (setup % 16))) ∧
    (t.pwr = s.pwr ∨ (i = .powerDown ∧ t.pwr = .down) ∨
      ∃ setup audioOut, i = .powerUp setup audioOut ∧ t.pwr = .up t.mode)

/-- Every step that answers a next state and whose request is not a reset leaves TRACE as a beginning of the
new TRACE; every such step, a reset too, leaves the open parameters as they are and the draw counter no lower.
The draw counter and the parameters are the model's own fields, and that a reset keeps them is the model's
choice (log 5, 7, 19); that TRACE is the observation is the spec's (D2). -/
def Obligations.TraceOnlyGrowsAndParametersStay : Prop :=
  ∀ s t : State, step s = .next t →
    (s.calls.head? ≠ some .reset → s.trace <+: t.trace) ∧ t.params = s.params ∧ s.draws ≤ t.draws

/-- If two blocks that are not stuck agree on MODE, the open parameters and the draw counter, and a command
passes admission on one, it passes on the other, and both runs append the same events and agree on MODE,
LINES, SR, the sequencer, FAULT and BUF[0..7], and on all of BUF after a long read, however their BUF, PWR,
LINES, SR and TRACE differed. -/
def Obligations.NoEarlierResponseAffectsACommand : Prop :=
  ∀ (i : Instr) (s s' t : State), i.isCommand = true → s'.fault = 0 → s.mode = s'.mode →
    s.params = s'.params → s.draws = s'.draws → exec i s = .next t → t.fault = 0 →
    ∃ t' events, exec i s' = .next t' ∧ t.trace = s.trace ++ events ∧ t'.trace = s'.trace ++ events ∧
      t'.mode = t.mode ∧ t'.lines = t.lines ∧ t'.sr = t.sr ∧ t'.bitIdx = t.bitIdx ∧
      t'.byteIdx = t.byteIdx ∧ t'.phase = t.phase ∧ t'.fault = t.fault ∧ t'.draws = t.draws ∧
      ∀ k : Offset, (k.val < 8 ∨ events.length = 647) → t'.readBuf k = t.readBuf k

/-- For every instruction and every other value of PWR: if it answers a next state, then with PWR replaced it
answers the same state but for PWR, and with PWR replaced it is stuck exactly when it was. So a command issued
while PWR is Down runs exactly as in any other state. That PWR is a ghost no rule reads is the spec's choice
(D12, C2; log 25). -/
def Obligations.PowerRecordAffectsNothing : Prop :=
  ∀ (i : Instr) (s : State) (w : Power),
    (∀ t, exec i s = .next t → ∃ t', exec i { s with pwr := w } = .next t' ∧ { t' with pwr := t.pwr } = t) ∧
    (∀ f, exec i s = .fault f → exec i { s with pwr := w } = .fault f)
end

