-- ==== Sys2Proof/Laws/Memory.lean ====
section
/-! SUPPORT. The laws of BUF: what a read gives after a write, and that writes keep the canonical form. -/

namespace Sys2Proof.Machine

theorem Memory.lookup_filter_ne (m : Memory) (a b : Nat) (h : b ≠ a) :
    List.lookup b (m.filter (fun c => c.1 != a)) = List.lookup b m := by
  induction m with
  | nil => rfl
  | cons c m ih =>
    obtain ⟨x, v⟩ := c
    by_cases hx : x = a
    · subst hx
      have hb : (b == x) = false := by simpa using h
      simp [List.lookup_cons, hb, ih]
    · by_cases hb : b = x
      · subst hb; simp [hx]
      · have hbx : (b == x) = false := by simpa using hb
        simp [hx, List.lookup_cons, hbx, ih]

theorem Memory.lookup_filter_self (m : Memory) (a : Nat) :
    List.lookup a (m.filter (fun c => c.1 != a)) = none := by
  induction m with
  | nil => rfl
  | cons c m ih =>
    obtain ⟨x, v⟩ := c
    by_cases hx : x = a
    · subst hx; simpa using ih
    · have hax : (a == x) = false := by simpa using fun h => hx h.symm
      simp [hx, List.lookup_cons, hax]
      simpa using ih

theorem Memory.lookup_insertCell (m : Memory) (a b : Nat) (v : Byte) (h : List.lookup a m = none) :
    List.lookup b (Memory.insertCell m (a, v)) = if b = a then some v else List.lookup b m := by
  induction m with
  | nil =>
    by_cases hb : b = a
    · subst hb; simp [Memory.insertCell]
    · have : (b == a) = false := by simpa using hb
      simp [Memory.insertCell, List.lookup_cons, this, hb]
  | cons d m ih =>
    obtain ⟨x, w⟩ := d
    have hax : a ≠ x := by
      rintro rfl; simp at h
    have h' : List.lookup a m = none := by
      have : (a == x) = false := by simpa using hax
      simpa [List.lookup_cons, this] using h
    unfold Memory.insertCell
    split
    · by_cases hb : b = a
      · subst hb; simp
      · have : (b == a) = false := by simpa using hb
        simp [List.lookup_cons, this, hb]
    · by_cases hbx : b = x
      · subst hbx; simp [Ne.symm hax]
      · have : (b == x) = false := by simpa using hbx
        simp [List.lookup_cons, this, ih h']

/-- A read after a write gives the value written at its offset and what was there at every other. -/
theorem Memory.read_write (m : Memory) (k j : Offset) (v : Byte) :
    (m.write k v).read j = if j = k then v else m.read j := by
  unfold Memory.read Memory.write
  by_cases hjk : j = k
  · subst hjk
    by_cases hv : v = unlistedByte
    · simp only [hv, if_true]; rw [Memory.lookup_filter_self]; rfl
    · simp only [hv, if_false, if_true]
      rw [Memory.lookup_insertCell _ _ _ _ (Memory.lookup_filter_self m j.val)]; simp
  · have hne : j.val ≠ k.val := fun h => hjk (Fin.ext h)
    by_cases hv : v = unlistedByte
    · simp only [hv, if_true, hjk, if_false]; rw [Memory.lookup_filter_ne _ _ _ hne]
    · simp only [hv, if_false, hjk]
      rw [Memory.lookup_insertCell _ _ _ _ (Memory.lookup_filter_self m k.val), if_neg hne,
        Memory.lookup_filter_ne _ _ _ hne]

@[simp] theorem Memory.read_write_same (m : Memory) (k : Offset) (v : Byte) :
    (m.write k v).read k = v := by simp [Memory.read_write]

theorem Memory.read_write_other (m : Memory) (k j : Offset) (v : Byte) (h : j ≠ k) :
    (m.write k v).read j = m.read j := by simp [Memory.read_write, h]

theorem Memory.mem_insertCell (m : Memory) (c d : Host.Cell) :
    d ∈ Memory.insertCell m c ↔ d = c ∨ d ∈ m := by
  induction m with
  | nil => simp [Memory.insertCell]
  | cons e m ih =>
    unfold Memory.insertCell
    split
    · simp
    · simp [ih]; tauto

theorem Memory.pairwise_insertCell (m : Memory) (c : Host.Cell)
    (hm : m.Pairwise (fun a b => a.1 < b.1)) (hc : ∀ d ∈ m, d.1 ≠ c.1) :
    (Memory.insertCell m c).Pairwise (fun a b => a.1 < b.1) := by
  induction m with
  | nil => simp [Memory.insertCell]
  | cons e m ih =>
    unfold Memory.insertCell
    have hm' := List.pairwise_cons.mp hm
    split
    · rename_i hlt
      refine List.pairwise_cons.mpr ⟨?_, hm⟩
      intro d hd
      rcases List.mem_cons.mp hd with rfl | hd
      · exact hlt
      · exact lt_trans hlt (hm'.1 d hd)
    · rename_i hlt
      have hne : e.1 ≠ c.1 := hc e (by simp)
      refine List.pairwise_cons.mpr ⟨?_, ih hm'.2 (fun d hd => hc d (by simp [hd]))⟩
      intro d hd
      rcases (Memory.mem_insertCell m c d).mp hd with rfl | hd
      · omega
      · exact hm'.1 d hd

/-- A write keeps the canonical form. -/
theorem Memory.wf_write (m : Memory) (k : Offset) (v : Byte) (h : m.wf = true) :
    (m.write k v).wf = true := by
  simp only [Memory.wf, Bool.and_eq_true, decide_eq_true_eq, List.all_eq_true, bne_iff_ne] at h ⊢
  obtain ⟨hp, ha⟩ := h
  have hpf : (m.filter (fun c => c.1 != k.val)).Pairwise (fun c d => c.1 < d.1) := hp.filter _
  have haf : ∀ c ∈ m.filter (fun c => c.1 != k.val), c.1 < 16 ∧ c.2 ≠ unlistedByte :=
    fun c hc => ha c (List.mem_filter.mp hc).1
  unfold Memory.write
  split
  · exact ⟨hpf, haf⟩
  · rename_i hv
    refine ⟨Memory.pairwise_insertCell _ _ hpf ?_, ?_⟩
    · intro d hd
      simpa using (List.mem_filter.mp hd).2
    · intro c hc
      rcases (Memory.mem_insertCell _ _ _).mp hc with rfl | hc
      · exact ⟨k.isLt, hv⟩
      · exact haf c hc

/-- The memory of the reset state is in canonical form. -/
theorem State.reset_buf_wf : State.reset.buf.wf = true := by decide

end Sys2Proof.Machine
end

