-- ==== Sys2Proof/Laws/State.lean ====
section
/-! SUPPORT. One lemma per field per update of State, each true by rfl. -/

namespace Sys2Proof.Machine

variable (s : State)

/-! ### emit -/

@[simp] theorem State.emit_lines (e : Event) : (s.emit e).lines = s.lines := rfl
@[simp] theorem State.emit_sr (e : Event) : (s.emit e).sr = s.sr := rfl
@[simp] theorem State.emit_bitIdx (e : Event) : (s.emit e).bitIdx = s.bitIdx := rfl
@[simp] theorem State.emit_byteIdx (e : Event) : (s.emit e).byteIdx = s.byteIdx := rfl
@[simp] theorem State.emit_phase (e : Event) : (s.emit e).phase = s.phase := rfl
@[simp] theorem State.emit_buf (e : Event) : (s.emit e).buf = s.buf := rfl
@[simp] theorem State.emit_mode (e : Event) : (s.emit e).mode = s.mode := rfl
@[simp] theorem State.emit_pwr (e : Event) : (s.emit e).pwr = s.pwr := rfl
@[simp] theorem State.emit_fault (e : Event) : (s.emit e).fault = s.fault := rfl
@[simp] theorem State.emit_trace (e : Event) : (s.emit e).trace = s.trace ++ [e] := rfl
@[simp] theorem State.emit_draws (e : Event) : (s.emit e).draws = s.draws := rfl
@[simp] theorem State.emit_ret (e : Event) : (s.emit e).ret = s.ret := rfl
@[simp] theorem State.emit_params (e : Event) : (s.emit e).params = s.params := rfl
@[simp] theorem State.emit_calls (e : Event) : (s.emit e).calls = s.calls := rfl

/-! ### setEN -/

@[simp] theorem State.setEN_lines (a : Enable) : (s.setEN a).lines = { s.lines with en := a } := rfl
@[simp] theorem State.setEN_sr (a : Enable) : (s.setEN a).sr = s.sr := rfl
@[simp] theorem State.setEN_bitIdx (a : Enable) : (s.setEN a).bitIdx = s.bitIdx := rfl
@[simp] theorem State.setEN_byteIdx (a : Enable) : (s.setEN a).byteIdx = s.byteIdx := rfl
@[simp] theorem State.setEN_phase (a : Enable) : (s.setEN a).phase = s.phase := rfl
@[simp] theorem State.setEN_buf (a : Enable) : (s.setEN a).buf = s.buf := rfl
@[simp] theorem State.setEN_mode (a : Enable) : (s.setEN a).mode = s.mode := rfl
@[simp] theorem State.setEN_pwr (a : Enable) : (s.setEN a).pwr = s.pwr := rfl
@[simp] theorem State.setEN_fault (a : Enable) : (s.setEN a).fault = s.fault := rfl
@[simp] theorem State.setEN_trace (a : Enable) : (s.setEN a).trace = s.trace ++ [.en a] := rfl
@[simp] theorem State.setEN_draws (a : Enable) : (s.setEN a).draws = s.draws := rfl
@[simp] theorem State.setEN_ret (a : Enable) : (s.setEN a).ret = s.ret := rfl
@[simp] theorem State.setEN_params (a : Enable) : (s.setEN a).params = s.params := rfl
@[simp] theorem State.setEN_calls (a : Enable) : (s.setEN a).calls = s.calls := rfl

/-! ### setCLK -/

@[simp] theorem State.setCLK_lines (l : Bit) : (s.setCLK l).lines = { s.lines with clk := l } := rfl
@[simp] theorem State.setCLK_sr (l : Bit) : (s.setCLK l).sr = s.sr := rfl
@[simp] theorem State.setCLK_bitIdx (l : Bit) : (s.setCLK l).bitIdx = s.bitIdx := rfl
@[simp] theorem State.setCLK_byteIdx (l : Bit) : (s.setCLK l).byteIdx = s.byteIdx := rfl
@[simp] theorem State.setCLK_phase (l : Bit) : (s.setCLK l).phase = s.phase := rfl
@[simp] theorem State.setCLK_buf (l : Bit) : (s.setCLK l).buf = s.buf := rfl
@[simp] theorem State.setCLK_mode (l : Bit) : (s.setCLK l).mode = s.mode := rfl
@[simp] theorem State.setCLK_pwr (l : Bit) : (s.setCLK l).pwr = s.pwr := rfl
@[simp] theorem State.setCLK_fault (l : Bit) : (s.setCLK l).fault = s.fault := rfl
@[simp] theorem State.setCLK_trace (l : Bit) : (s.setCLK l).trace = s.trace ++ [.clk l] := rfl
@[simp] theorem State.setCLK_draws (l : Bit) : (s.setCLK l).draws = s.draws := rfl
@[simp] theorem State.setCLK_ret (l : Bit) : (s.setCLK l).ret = s.ret := rfl
@[simp] theorem State.setCLK_params (l : Bit) : (s.setCLK l).params = s.params := rfl
@[simp] theorem State.setCLK_calls (l : Bit) : (s.setCLK l).calls = s.calls := rfl

/-! ### setDIR -/

@[simp] theorem State.setDIR_lines (d : Direction) : (s.setDIR d).lines = { s.lines with ddir := d } := rfl
@[simp] theorem State.setDIR_sr (d : Direction) : (s.setDIR d).sr = s.sr := rfl
@[simp] theorem State.setDIR_bitIdx (d : Direction) : (s.setDIR d).bitIdx = s.bitIdx := rfl
@[simp] theorem State.setDIR_byteIdx (d : Direction) : (s.setDIR d).byteIdx = s.byteIdx := rfl
@[simp] theorem State.setDIR_phase (d : Direction) : (s.setDIR d).phase = s.phase := rfl
@[simp] theorem State.setDIR_buf (d : Direction) : (s.setDIR d).buf = s.buf := rfl
@[simp] theorem State.setDIR_mode (d : Direction) : (s.setDIR d).mode = s.mode := rfl
@[simp] theorem State.setDIR_pwr (d : Direction) : (s.setDIR d).pwr = s.pwr := rfl
@[simp] theorem State.setDIR_fault (d : Direction) : (s.setDIR d).fault = s.fault := rfl
@[simp] theorem State.setDIR_trace (d : Direction) : (s.setDIR d).trace = s.trace ++ [.dir d] := rfl
@[simp] theorem State.setDIR_draws (d : Direction) : (s.setDIR d).draws = s.draws := rfl
@[simp] theorem State.setDIR_ret (d : Direction) : (s.setDIR d).ret = s.ret := rfl
@[simp] theorem State.setDIR_params (d : Direction) : (s.setDIR d).params = s.params := rfl
@[simp] theorem State.setDIR_calls (d : Direction) : (s.setDIR d).calls = s.calls := rfl

/-! ### setDOUT -/

@[simp] theorem State.setDOUT_lines (b : Bit) : (s.setDOUT b).lines = { s.lines with dout := b } := rfl
@[simp] theorem State.setDOUT_sr (b : Bit) : (s.setDOUT b).sr = s.sr := rfl
@[simp] theorem State.setDOUT_bitIdx (b : Bit) : (s.setDOUT b).bitIdx = s.bitIdx := rfl
@[simp] theorem State.setDOUT_byteIdx (b : Bit) : (s.setDOUT b).byteIdx = s.byteIdx := rfl
@[simp] theorem State.setDOUT_phase (b : Bit) : (s.setDOUT b).phase = s.phase := rfl
@[simp] theorem State.setDOUT_buf (b : Bit) : (s.setDOUT b).buf = s.buf := rfl
@[simp] theorem State.setDOUT_mode (b : Bit) : (s.setDOUT b).mode = s.mode := rfl
@[simp] theorem State.setDOUT_pwr (b : Bit) : (s.setDOUT b).pwr = s.pwr := rfl
@[simp] theorem State.setDOUT_fault (b : Bit) : (s.setDOUT b).fault = s.fault := rfl
@[simp] theorem State.setDOUT_trace (b : Bit) : (s.setDOUT b).trace = s.trace ++ [.dout b] := rfl
@[simp] theorem State.setDOUT_draws (b : Bit) : (s.setDOUT b).draws = s.draws := rfl
@[simp] theorem State.setDOUT_ret (b : Bit) : (s.setDOUT b).ret = s.ret := rfl
@[simp] theorem State.setDOUT_params (b : Bit) : (s.setDOUT b).params = s.params := rfl
@[simp] theorem State.setDOUT_calls (b : Bit) : (s.setDOUT b).calls = s.calls := rfl

/-! ### settle -/

@[simp] theorem State.settle_lines (us : Nat) : (s.settle us).lines = s.lines := rfl
@[simp] theorem State.settle_sr (us : Nat) : (s.settle us).sr = s.sr := rfl
@[simp] theorem State.settle_bitIdx (us : Nat) : (s.settle us).bitIdx = s.bitIdx := rfl
@[simp] theorem State.settle_byteIdx (us : Nat) : (s.settle us).byteIdx = s.byteIdx := rfl
@[simp] theorem State.settle_phase (us : Nat) : (s.settle us).phase = s.phase := rfl
@[simp] theorem State.settle_buf (us : Nat) : (s.settle us).buf = s.buf := rfl
@[simp] theorem State.settle_mode (us : Nat) : (s.settle us).mode = s.mode := rfl
@[simp] theorem State.settle_pwr (us : Nat) : (s.settle us).pwr = s.pwr := rfl
@[simp] theorem State.settle_fault (us : Nat) : (s.settle us).fault = s.fault := rfl
@[simp] theorem State.settle_trace (us : Nat) : (s.settle us).trace = s.trace ++ [.settle us] := rfl
@[simp] theorem State.settle_draws (us : Nat) : (s.settle us).draws = s.draws := rfl
@[simp] theorem State.settle_ret (us : Nat) : (s.settle us).ret = s.ret := rfl
@[simp] theorem State.settle_params (us : Nat) : (s.settle us).params = s.params := rfl
@[simp] theorem State.settle_calls (us : Nat) : (s.settle us).calls = s.calls := rfl

/-! ### setPhase -/

@[simp] theorem State.setPhase_lines (p : Phase) : (s.setPhase p).lines = s.lines := rfl
@[simp] theorem State.setPhase_sr (p : Phase) : (s.setPhase p).sr = s.sr := rfl
@[simp] theorem State.setPhase_bitIdx (p : Phase) : (s.setPhase p).bitIdx = s.bitIdx := rfl
@[simp] theorem State.setPhase_byteIdx (p : Phase) : (s.setPhase p).byteIdx = s.byteIdx := rfl
@[simp] theorem State.setPhase_phase (p : Phase) : (s.setPhase p).phase = p := rfl
@[simp] theorem State.setPhase_buf (p : Phase) : (s.setPhase p).buf = s.buf := rfl
@[simp] theorem State.setPhase_mode (p : Phase) : (s.setPhase p).mode = s.mode := rfl
@[simp] theorem State.setPhase_pwr (p : Phase) : (s.setPhase p).pwr = s.pwr := rfl
@[simp] theorem State.setPhase_fault (p : Phase) : (s.setPhase p).fault = s.fault := rfl
@[simp] theorem State.setPhase_trace (p : Phase) : (s.setPhase p).trace = s.trace := rfl
@[simp] theorem State.setPhase_draws (p : Phase) : (s.setPhase p).draws = s.draws := rfl
@[simp] theorem State.setPhase_ret (p : Phase) : (s.setPhase p).ret = s.ret := rfl
@[simp] theorem State.setPhase_params (p : Phase) : (s.setPhase p).params = s.params := rfl
@[simp] theorem State.setPhase_calls (p : Phase) : (s.setPhase p).calls = s.calls := rfl

/-! ### setByteIdx -/

@[simp] theorem State.setByteIdx_lines (k : Offset) : (s.setByteIdx k).lines = s.lines := rfl
@[simp] theorem State.setByteIdx_sr (k : Offset) : (s.setByteIdx k).sr = s.sr := rfl
@[simp] theorem State.setByteIdx_bitIdx (k : Offset) : (s.setByteIdx k).bitIdx = s.bitIdx := rfl
@[simp] theorem State.setByteIdx_byteIdx (k : Offset) : (s.setByteIdx k).byteIdx = k := rfl
@[simp] theorem State.setByteIdx_phase (k : Offset) : (s.setByteIdx k).phase = s.phase := rfl
@[simp] theorem State.setByteIdx_buf (k : Offset) : (s.setByteIdx k).buf = s.buf := rfl
@[simp] theorem State.setByteIdx_mode (k : Offset) : (s.setByteIdx k).mode = s.mode := rfl
@[simp] theorem State.setByteIdx_pwr (k : Offset) : (s.setByteIdx k).pwr = s.pwr := rfl
@[simp] theorem State.setByteIdx_fault (k : Offset) : (s.setByteIdx k).fault = s.fault := rfl
@[simp] theorem State.setByteIdx_trace (k : Offset) : (s.setByteIdx k).trace = s.trace := rfl
@[simp] theorem State.setByteIdx_draws (k : Offset) : (s.setByteIdx k).draws = s.draws := rfl
@[simp] theorem State.setByteIdx_ret (k : Offset) : (s.setByteIdx k).ret = s.ret := rfl
@[simp] theorem State.setByteIdx_params (k : Offset) : (s.setByteIdx k).params = s.params := rfl
@[simp] theorem State.setByteIdx_calls (k : Offset) : (s.setByteIdx k).calls = s.calls := rfl

/-! ### writeBuf -/

@[simp] theorem State.writeBuf_lines (k : Offset) (v : Byte) : (s.writeBuf k v).lines = s.lines := rfl
@[simp] theorem State.writeBuf_sr (k : Offset) (v : Byte) : (s.writeBuf k v).sr = s.sr := rfl
@[simp] theorem State.writeBuf_bitIdx (k : Offset) (v : Byte) : (s.writeBuf k v).bitIdx = s.bitIdx := rfl
@[simp] theorem State.writeBuf_byteIdx (k : Offset) (v : Byte) : (s.writeBuf k v).byteIdx = s.byteIdx := rfl
@[simp] theorem State.writeBuf_phase (k : Offset) (v : Byte) : (s.writeBuf k v).phase = s.phase := rfl
@[simp] theorem State.writeBuf_buf (k : Offset) (v : Byte) : (s.writeBuf k v).buf = s.buf.write k v := rfl
@[simp] theorem State.writeBuf_mode (k : Offset) (v : Byte) : (s.writeBuf k v).mode = s.mode := rfl
@[simp] theorem State.writeBuf_pwr (k : Offset) (v : Byte) : (s.writeBuf k v).pwr = s.pwr := rfl
@[simp] theorem State.writeBuf_fault (k : Offset) (v : Byte) : (s.writeBuf k v).fault = s.fault := rfl
@[simp] theorem State.writeBuf_trace (k : Offset) (v : Byte) : (s.writeBuf k v).trace = s.trace := rfl
@[simp] theorem State.writeBuf_draws (k : Offset) (v : Byte) : (s.writeBuf k v).draws = s.draws := rfl
@[simp] theorem State.writeBuf_ret (k : Offset) (v : Byte) : (s.writeBuf k v).ret = s.ret := rfl
@[simp] theorem State.writeBuf_params (k : Offset) (v : Byte) : (s.writeBuf k v).params = s.params := rfl
@[simp] theorem State.writeBuf_calls (k : Offset) (v : Byte) : (s.writeBuf k v).calls = s.calls := rfl

/-! ### raise -/

@[simp] theorem State.raise_lines (k : FaultBit) : (s.raise k).lines = s.lines := rfl
@[simp] theorem State.raise_sr (k : FaultBit) : (s.raise k).sr = s.sr := rfl
@[simp] theorem State.raise_bitIdx (k : FaultBit) : (s.raise k).bitIdx = s.bitIdx := rfl
@[simp] theorem State.raise_byteIdx (k : FaultBit) : (s.raise k).byteIdx = s.byteIdx := rfl
@[simp] theorem State.raise_phase (k : FaultBit) : (s.raise k).phase = s.phase := rfl
@[simp] theorem State.raise_buf (k : FaultBit) : (s.raise k).buf = s.buf := rfl
@[simp] theorem State.raise_mode (k : FaultBit) : (s.raise k).mode = s.mode := rfl
@[simp] theorem State.raise_pwr (k : FaultBit) : (s.raise k).pwr = s.pwr := rfl
@[simp] theorem State.raise_fault (k : FaultBit) : (s.raise k).fault = s.fault ||| k.mask := rfl
@[simp] theorem State.raise_trace (k : FaultBit) : (s.raise k).trace = s.trace := rfl
@[simp] theorem State.raise_draws (k : FaultBit) : (s.raise k).draws = s.draws := rfl
@[simp] theorem State.raise_ret (k : FaultBit) : (s.raise k).ret = s.ret := rfl
@[simp] theorem State.raise_params (k : FaultBit) : (s.raise k).params = s.params := rfl
@[simp] theorem State.raise_calls (k : FaultBit) : (s.raise k).calls = s.calls := rfl

/-! ### give -/

@[simp] theorem State.give_lines (v : Value) : (s.give v).lines = s.lines := rfl
@[simp] theorem State.give_sr (v : Value) : (s.give v).sr = s.sr := rfl
@[simp] theorem State.give_bitIdx (v : Value) : (s.give v).bitIdx = s.bitIdx := rfl
@[simp] theorem State.give_byteIdx (v : Value) : (s.give v).byteIdx = s.byteIdx := rfl
@[simp] theorem State.give_phase (v : Value) : (s.give v).phase = s.phase := rfl
@[simp] theorem State.give_buf (v : Value) : (s.give v).buf = s.buf := rfl
@[simp] theorem State.give_mode (v : Value) : (s.give v).mode = s.mode := rfl
@[simp] theorem State.give_pwr (v : Value) : (s.give v).pwr = s.pwr := rfl
@[simp] theorem State.give_fault (v : Value) : (s.give v).fault = s.fault := rfl
@[simp] theorem State.give_trace (v : Value) : (s.give v).trace = s.trace := rfl
@[simp] theorem State.give_draws (v : Value) : (s.give v).draws = s.draws := rfl
@[simp] theorem State.give_ret (v : Value) : (s.give v).ret = some v := rfl
@[simp] theorem State.give_params (v : Value) : (s.give v).params = s.params := rfl
@[simp] theorem State.give_calls (v : Value) : (s.give v).calls = s.calls := rfl

/-! ### poweredUp -/

@[simp] theorem State.poweredUp_lines (setup : Nat) : (s.poweredUp setup).lines = s.lines := rfl
@[simp] theorem State.poweredUp_sr (setup : Nat) : (s.poweredUp setup).sr = s.sr := rfl
@[simp] theorem State.poweredUp_bitIdx (setup : Nat) : (s.poweredUp setup).bitIdx = s.bitIdx := rfl
@[simp] theorem State.poweredUp_byteIdx (setup : Nat) : (s.poweredUp setup).byteIdx = s.byteIdx := rfl
@[simp] theorem State.poweredUp_phase (setup : Nat) : (s.poweredUp setup).phase = s.phase := rfl
@[simp] theorem State.poweredUp_buf (setup : Nat) : (s.poweredUp setup).buf = s.buf := rfl
@[simp] theorem State.poweredUp_mode (setup : Nat) : (s.poweredUp setup).mode = .func (funcOf setup) := rfl
@[simp] theorem State.poweredUp_pwr (setup : Nat) : (s.poweredUp setup).pwr = .up (.func (funcOf setup)) := rfl
@[simp] theorem State.poweredUp_fault (setup : Nat) : (s.poweredUp setup).fault = s.fault := rfl
@[simp] theorem State.poweredUp_trace (setup : Nat) : (s.poweredUp setup).trace = s.trace := rfl
@[simp] theorem State.poweredUp_draws (setup : Nat) : (s.poweredUp setup).draws = s.draws := rfl
@[simp] theorem State.poweredUp_ret (setup : Nat) : (s.poweredUp setup).ret = s.ret := rfl
@[simp] theorem State.poweredUp_params (setup : Nat) : (s.poweredUp setup).params = s.params := rfl
@[simp] theorem State.poweredUp_calls (setup : Nat) : (s.poweredUp setup).calls = s.calls := rfl

/-! ### poweredDown -/

@[simp] theorem State.poweredDown_lines : s.poweredDown.lines = s.lines := rfl
@[simp] theorem State.poweredDown_sr : s.poweredDown.sr = s.sr := rfl
@[simp] theorem State.poweredDown_bitIdx : s.poweredDown.bitIdx = s.bitIdx := rfl
@[simp] theorem State.poweredDown_byteIdx : s.poweredDown.byteIdx = s.byteIdx := rfl
@[simp] theorem State.poweredDown_phase : s.poweredDown.phase = s.phase := rfl
@[simp] theorem State.poweredDown_buf : s.poweredDown.buf = s.buf := rfl
@[simp] theorem State.poweredDown_mode : s.poweredDown.mode = s.mode := rfl
@[simp] theorem State.poweredDown_pwr : s.poweredDown.pwr = .down := rfl
@[simp] theorem State.poweredDown_fault : s.poweredDown.fault = s.fault := rfl
@[simp] theorem State.poweredDown_trace : s.poweredDown.trace = s.trace := rfl
@[simp] theorem State.poweredDown_draws : s.poweredDown.draws = s.draws := rfl
@[simp] theorem State.poweredDown_ret : s.poweredDown.ret = s.ret := rfl
@[simp] theorem State.poweredDown_params : s.poweredDown.params = s.params := rfl
@[simp] theorem State.poweredDown_calls : s.poweredDown.calls = s.calls := rfl

/-! ### accept -/

@[simp] theorem State.accept_lines (rest : List Request) : (s.accept rest).lines = s.lines := rfl
@[simp] theorem State.accept_sr (rest : List Request) : (s.accept rest).sr = s.sr := rfl
@[simp] theorem State.accept_bitIdx (rest : List Request) : (s.accept rest).bitIdx = s.bitIdx := rfl
@[simp] theorem State.accept_byteIdx (rest : List Request) : (s.accept rest).byteIdx = s.byteIdx := rfl
@[simp] theorem State.accept_phase (rest : List Request) : (s.accept rest).phase = s.phase := rfl
@[simp] theorem State.accept_buf (rest : List Request) : (s.accept rest).buf = s.buf := rfl
@[simp] theorem State.accept_mode (rest : List Request) : (s.accept rest).mode = s.mode := rfl
@[simp] theorem State.accept_pwr (rest : List Request) : (s.accept rest).pwr = s.pwr := rfl
@[simp] theorem State.accept_fault (rest : List Request) : (s.accept rest).fault = s.fault := rfl
@[simp] theorem State.accept_trace (rest : List Request) : (s.accept rest).trace = s.trace := rfl
@[simp] theorem State.accept_draws (rest : List Request) : (s.accept rest).draws = s.draws := rfl
@[simp] theorem State.accept_ret (rest : List Request) : (s.accept rest).ret = none := rfl
@[simp] theorem State.accept_params (rest : List Request) : (s.accept rest).params = s.params := rfl
@[simp] theorem State.accept_calls (rest : List Request) : (s.accept rest).calls = rest := rfl

end Sys2Proof.Machine
end

