-- ==== Sys2Proof/Laws/Ops.lean ====
section
/-! SUPPORT. One law per shared operation: the state it leaves, in closed form. -/

namespace Sys2Proof.Machine

open Safety

/-! ### Shifting -/

theorem shiftIn_getLsbD (sr : Byte) (v : Bit) (n : Nat) :
    (shiftIn sr v).getLsbD n = if n = 0 then v else (decide (n < 8) && sr.getLsbD (n - 1)) := by
  unfold shiftIn
  rw [BitVec.getLsbD_append]
  rcases n with _ | n
  · simp
  · simp only [Nat.add_sub_cancel, Nat.succ_ne_zero, if_false]
    by_cases h : n < 7
    · have h8 : n + 1 < 8 := by omega
      simp [h, h8]
    · simp only [BitVec.getLsbD_extractLsb', h, show ¬ (n + 1 < 1) by omega, decide_false,
        Bool.false_and, if_false, show ¬ (n + 1 < 8) by omega]

theorem append_ofBool_getLsbD (w : Nat) (x : BitVec w) (v : Bit) (n : Nat) :
    (x ++ BitVec.ofBool v).getLsbD n = if n = 0 then v else x.getLsbD (n - 1) := by
  rw [BitVec.getLsbD_append]
  rcases n with _ | n
  · simp
  · simp

/-- Eight shifts replace all of SR: the first bit shifted in ends as bit 7. -/
theorem shiftIn_eight (sr : Byte) (v0 v1 v2 v3 v4 v5 v6 v7 : Bit) :
    shiftIn (shiftIn (shiftIn (shiftIn (shiftIn (shiftIn (shiftIn (shiftIn sr v0) v1) v2) v3) v4) v5) v6) v7 =
      BitVec.ofBool v0 ++ BitVec.ofBool v1 ++ BitVec.ofBool v2 ++ BitVec.ofBool v3 ++
      BitVec.ofBool v4 ++ BitVec.ofBool v5 ++ BitVec.ofBool v6 ++ BitVec.ofBool v7 := by
  apply BitVec.eq_of_getLsbD_eq
  intro i hi
  change _ = BitVec.getLsbD (w := 1 + 1 + 1 + 1 + 1 + 1 + 1 + 1)
    (BitVec.ofBool v0 ++ BitVec.ofBool v1 ++ BitVec.ofBool v2 ++ BitVec.ofBool v3 ++
      BitVec.ofBool v4 ++ BitVec.ofBool v5 ++ BitVec.ofBool v6 ++ BitVec.ofBool v7) i
  simp only [shiftIn_getLsbD]
  rw [append_ofBool_getLsbD, append_ofBool_getLsbD, append_ofBool_getLsbD, append_ofBool_getLsbD,
    append_ofBool_getLsbD, append_ofBool_getLsbD, append_ofBool_getLsbD]
  have : i = 0 ∨ i = 1 ∨ i = 2 ∨ i = 3 ∨ i = 4 ∨ i = 5 ∨ i = 6 ∨ i = 7 := by omega
  rcases this with rfl | rfl | rfl | rfl | rfl | rfl | rfl | rfl <;>
    simp

/-! ### Bit transport -/

theorem State.sendBit_eq (i : Fin 8) (s : State) :
    s.sendBit i = { s with
      bitIdx := i
      lines := { s.lines with dout := s.sr.getLsbD 7, clk := false }
      sr := shiftIn s.sr false
      trace := s.trace ++ sendCell (s.sr.getLsbD 7) } := by
  simp [State.sendBit, State.setDOUT, State.setCLK, State.emit, sendCell]

/-- All that SEND_BYTE does. -/
theorem State.sendByte_eq (b : Byte) (s : State) :
    s.sendByte b = { s with
      bitIdx := 0
      lines := { s.lines with dout := b.getLsbD 0, clk := false }
      sr := 0x00
      trace := s.trace ++ sendEvents b } := by
  unfold State.sendByte bitsDown
  simp only [List.foldl_cons, List.foldl_nil, State.sendBit_eq]
  rw [shiftIn_eight]
  simp [-BitVec.getLsbD_eq_getElem, shiftIn_getLsbD, sendEvents]

theorem State.recvBit_eq (i : Fin 8) (s : State) (h : s.lines.ddir = .input) :
    s.recvBit i = { s with
      bitIdx := i
      lines := { s.lines with clk := false }
      sr := shiftIn s.sr (Config.deviceBit s.draws)
      draws := s.draws + 1
      trace := s.trace ++ recvCell (Config.deviceBit s.draws) } := by
  simp [State.recvBit, State.setCLK, State.emit, State.readDIN, State.din, h, recvCell]

/-- All that RECV_BYTE does. -/
theorem State.recvByte_eq (s : State) :
    s.recvByte = { s with
      bitIdx := 0
      lines := { s.lines with ddir := .input, clk := false }
      sr := deviceByte s.draws
      draws := s.draws + 8
      trace := s.trace ++ recvEvents s.draws } := by
  unfold State.recvByte bitsDown
  simp only [List.foldl_cons, List.foldl_nil]
  simp only [State.recvBit_eq, State.setDIR, State.emit]
  rw [shiftIn_eight]
  simp [recvEvents, deviceByte]

/-! ### Transactions -/

theorem State.openTxn_eq (c : Byte) (s : State) :
    s.openTxn c = { s with
      bitIdx := 0
      lines := { en := .asserted, clk := false, ddir := .output, dout := c.getLsbD 0 }
      sr := 0x00
      phase := .ctrl
      trace := s.trace ++ ([.dir .output, .en .asserted] ++ sendEvents c) } := by
  simp [State.openTxn, State.sendByte_eq, State.setDIR, State.setEN, State.setPhase, State.emit]

/-- The payload loop of WRITE_TXN, over any offsets. -/
theorem State.sendLoop_eq (ks : List Offset) (s : State) :
    ks.foldl (fun t k => (t.setByteIdx k).sendByte (t.readBuf k)) s =
      match ks.getLast? with
      | none => s
      | some k => { s with
          bitIdx := 0
          byteIdx := k
          lines := { s.lines with dout := (s.readBuf k).getLsbD 0, clk := false }
          sr := 0x00
          trace := s.trace ++ ks.flatMap (fun j => sendEvents (s.readBuf j)) } := by
  induction ks generalizing s with
  | nil => rfl
  | cons k ks ih =>
    rw [List.foldl_cons, ih]
    rcases ks with _ | ⟨k', ks⟩
    · simp [State.sendByte_eq, State.setByteIdx]
    · simp [State.sendByte_eq, State.setByteIdx, State.readBuf, List.getLast?_cons_cons]
      cases h : (k' :: ks).getLast? with
      | none => simp at h
      | some j => simp

/-- All that WRITE_TXN does. -/
theorem State.writeTxn_eq (s : State) :
    s.writeTxn = { s with
      bitIdx := 0
      byteIdx := 7
      lines := { en := .released, clk := false, ddir := .output, dout := (s.readBuf 7).getLsbD 0 }
      sr := 0x00
      phase := .idle
      trace := s.trace ++ writeEvents (payloadOffsets.map s.readBuf) } := by
  unfold State.writeTxn
  rw [State.sendLoop_eq]
  simp [payloadOffsets, State.openTxn_eq, State.closeTxn, State.setPhase, State.setEN, State.emit,
    State.readBuf, writeEvents, bracket, ctrlWrite]

theorem State.recvInto_eq (s : State) (k : Offset) :
    s.recvInto k = { s with
      bitIdx := 0
      byteIdx := k
      lines := { s.lines with ddir := .input, clk := false }
      sr := deviceByte s.draws
      draws := s.draws + 8
      buf := s.buf.write k (deviceByte s.draws)
      trace := s.trace ++ recvEvents s.draws } := by
  simp [State.recvInto, State.recvByte_eq, State.setByteIdx, State.writeBuf]

/-- All that SHORT_READ_TXN does. -/
theorem State.shortReadTxn_eq (s : State) :
    s.shortReadTxn = { s with
      bitIdx := 0
      byteIdx := 0
      lines := { en := .released, clk := false, ddir := .input, dout := false }
      sr := deviceByte s.draws
      phase := .idle
      draws := s.draws + 8
      buf := s.buf.write 0 (deviceByte s.draws)
      trace := s.trace ++ shortReadEvents s.draws } := by
  simp [State.shortReadTxn, State.openTxn_eq, State.recvInto_eq, State.closeTxn, State.setPhase,
    State.setEN, State.emit, shortReadEvents, bracket, ctrlShortRead]

/-- BUF after the bytes drawn from `n` on are stored at these offsets in turn. -/
def Memory.fill (m : Memory) (n : Nat) : List Offset → Memory
  | [] => m
  | k :: ks => Memory.fill (m.write k (deviceByte n)) (n + 8) ks

/-- All that LONG_READ_TXN does. -/
theorem State.longReadTxn_eq (s : State) :
    s.longReadTxn = { s with
      bitIdx := 0
      byteIdx := 15
      lines := { en := .released, clk := false, ddir := .input, dout := false }
      sr := deviceByte (s.draws + 120)
      phase := .idle
      draws := s.draws + 128
      buf := Memory.fill s.buf s.draws allOffsets
      trace := s.trace ++ longReadEvents s.draws } := by
  simp [State.longReadTxn, allOffsets, State.openTxn_eq, State.recvInto_eq, State.closeTxn,
    State.setPhase, State.setEN, State.emit, longReadEvents, bracket, ctrlLongRead, Memory.fill,
    List.range_succ, Nat.add_assoc]

theorem Memory.read_fill_all (m : Memory) (n : Nat) (k : Offset) :
    (Memory.fill m n allOffsets).read k = deviceByte (n + 8 * k.val) := by
  simp only [allOffsets, Memory.fill, Memory.read_write, Nat.add_assoc]
  fin_cases k <;> simp

theorem Memory.wf_fill (m : Memory) (n : Nat) (ks : List Offset) (h : m.wf = true) :
    (Memory.fill m n ks).wf = true := by
  induction ks generalizing m n with
  | nil => exact h
  | cons k ks ih => exact ih _ _ (Memory.wf_write _ _ _ h)

/-! ### Staging and the whole command -/

/-- BUF after STAGE. -/
def Memory.staged (m : Memory) (bytes : List Byte) : Memory :=
  payloadOffsets.foldl (fun t k => t.write k ((padded bytes).getD k.val 0x00)) m

theorem State.stage_eq (bytes : List Byte) (s : State) :
    s.stage bytes = { s with phase := .stage, buf := Memory.staged s.buf bytes } := by
  simp [State.stage, State.writeBuf, State.setPhase, Memory.staged, payloadOffsets]

theorem Memory.read_staged (m : Memory) (bytes : List Byte) (k : Offset) :
    (Memory.staged m bytes).read k =
      if k.val < 8 then (padded bytes).getD k.val 0x00 else m.read k := by
  simp only [Memory.staged, payloadOffsets, List.foldl_cons, List.foldl_nil, Memory.read_write]
  fin_cases k <;> simp

theorem Memory.wf_staged (m : Memory) (bytes : List Byte) (h : m.wf = true) :
    (Memory.staged m bytes).wf = true := by
  unfold Memory.staged
  generalize payloadOffsets = ks
  induction ks generalizing m with
  | nil => exact h
  | cons k ks ih => exact ih _ (Memory.wf_write _ _ _ h)

theorem padded_length (bytes : List Byte) (h : bytes.length ≤ 8) : (padded bytes).length = 8 := by
  simp [padded]; omega

theorem eight_eq (l : List Byte) (h : l.length = 8) :
    payloadOffsets.map (fun k => l.getD k.val 0x00) = l := by
  match l, h with
  | [_, _, _, _, _, _, _, _], _ => rfl

/-- The bytes WRITE_TXN sends after staging are the padded payload (R124). -/
theorem Memory.staged_payload (m : Memory) (bytes : List Byte) (h : bytes.length ≤ 8) :
    payloadOffsets.map (Memory.staged m bytes).read = padded bytes := by
  rw [← eight_eq (padded bytes) (padded_length bytes h)]
  apply List.map_congr_left
  intro k hk
  rw [Memory.read_staged, if_pos]
  fin_cases hk <;> decide

/-- BUF after the third part of EXEC. -/
def Memory.exchanged (m : Memory) (n : Nat) (c : Command) : Memory :=
  match c.resp with
  | .short => (Memory.staged m c.staged).write 0 (deviceByte n)
  | .long => Memory.fill (Memory.staged m c.staged) n allOffsets

/-- All that the third part of EXEC does (R102). -/
theorem State.exchange_eq (c : Command) (s : State) (h : c.staged.length ≤ 8) :
    s.exchange c = { s with
      bitIdx := 0
      byteIdx := lastOffset c.resp
      lines := { en := .released, clk := false, ddir := .input, dout := false }
      sr := deviceByte (s.draws + 8 * (lastOffset c.resp).val)
      phase := .idle
      draws := s.draws + c.resp.bits
      buf := Memory.exchanged s.buf s.draws c
      trace := s.trace ++ commandEvents (padded c.staged) c.settle c.resp s.draws } := by
  have hp : payloadOffsets.map (s.stage c.staged).readBuf = padded c.staged := by
    rw [State.stage_eq]
    exact Memory.staged_payload s.buf c.staged h
  unfold State.exchange
  rw [State.writeTxn_eq, hp]
  cases hr : c.resp <;>
    simp [State.readTxn, State.shortReadTxn_eq, State.longReadTxn_eq, State.stage_eq, State.setPhase,
      State.settle, State.emit, Memory.exchanged, hr, Resp.bits, commandEvents, readEvents,
      lastOffset]

/-- The third part of EXEC leaves what `Ran` says. -/
theorem State.exchange_ran (c : Command) (s : State) (h : c.staged.length ≤ 8) :
    Ran s (s.exchange c) (padded c.staged) c.settle c.resp := by
  rw [State.exchange_eq c s h]
  refine ⟨rfl, ?_, rfl, rfl, rfl, rfl, rfl, rfl, rfl, rfl, rfl, rfl⟩
  intro k
  simp only [State.readBuf, bufAfter, Memory.exchanged]
  cases c.resp
  · simp only [Memory.read_write, Memory.read_staged]
  · exact Memory.read_fill_all _ _ _

/-! ### Faults and the run of a command -/

theorem State.guarded_ok (s : State) (f : State → Result) (h : s.fault = 0) : s.guarded f = f s := by
  simp [State.guarded, h]

theorem State.guarded_stuck (s : State) (f : State → Result) (h : s.fault ≠ 0) :
    s.guarded f = .fault .stuck := by
  rw [State.guarded, if_neg h]

/-- All that EXEC can do: a stuck block stops; a command that fails admission changes FAULT alone; one
that passes runs whole. -/
theorem runCommand_cases (c : Command) (before : State → State) (s : State) :
    (s.fault ≠ 0 ∧ runCommand c before s = .fault .stuck) ∨
    (s.fault = 0 ∧ ∃ k, s.admission c = some k ∧ runCommand c before s = .next (s.raise k)) ∨
    (s.fault = 0 ∧ s.admission c = none ∧ runCommand c before s = .next ((before s).exchange c)) := by
  by_cases h : s.fault = 0
  · refine .inr ?_
    unfold runCommand
    rw [State.guarded_ok _ _ h]
    cases ha : s.admission c with
    | none => exact .inr ⟨h, rfl, rfl⟩
    | some k => exact .inl ⟨h, k, rfl, rfl⟩
  · exact .inl ⟨h, State.guarded_stuck _ _ h⟩

theorem runCommand_admitted (c : Command) (before : State → State) (s : State) (h : s.fault = 0)
    (ha : s.admission c = none) : runCommand c before s = .next ((before s).exchange c) := by
  simp [runCommand, State.guarded_ok _ _ h, ha]

theorem runCommand_raises (c : Command) (before : State → State) (s : State) (h : s.fault = 0)
    (k : FaultBit) (ha : s.admission c = some k) : runCommand c before s = .next (s.raise k) := by
  simp [runCommand, State.guarded_ok _ _ h, ha]

/-- All that an operation that cannot fail can do. -/
theorem runMicro_cases (op : State → State) (s : State) :
    (s.fault ≠ 0 ∧ runMicro op s = .fault .stuck) ∨ (s.fault = 0 ∧ runMicro op s = .next (op s)) := by
  by_cases h : s.fault = 0
  · exact .inr ⟨h, State.guarded_ok _ _ h⟩
  · exact .inl ⟨h, State.guarded_stuck _ _ h⟩

theorem State.admission_anyMode (s : State) (c : Command) (hf : c.fits = true) (hb : c.band = none)
    (hk : c.antcapOk = true) : s.admission c = none := by
  simp [State.admission, hf, hb, hk]

theorem State.admission_band (s : State) (c : Command) (b : Band) (hf : c.fits = true)
    (hb : c.band = some b) (hs : s.band = some b) (hk : c.antcapOk = true) : s.admission c = none := by
  simp [State.admission, hf, hb, hs, hk]

end Sys2Proof.Machine
end

