-- ==== Sys2Proof/Laws/Events.lean ====
section
/-! SUPPORT. The event lists of the operations: their lengths and pulses, and what replaying, timing, reading and checking them gives. -/

namespace Sys2Proof.Safety

open Machine

/-! ### Lengths and pulses -/

theorem sendEvents_length (b : Byte) : (sendEvents b).length = 24 := rfl

theorem recvEvents_length (n : Nat) : (recvEvents n).length = 25 := rfl

theorem flatMap_length_const {α β : Type} (f : α → List β) (c : Nat) (h : ∀ a, (f a).length = c)
    (l : List α) : (l.flatMap f).length = l.length * c := by
  induction l with
  | nil => simp
  | cons a l ih => simp [h, ih, Nat.add_mul, Nat.add_comm]

theorem writeEvents_length (payload : List Byte) :
    (writeEvents payload).length = 27 + payload.length * 24 := by
  simp only [writeEvents, bracket, List.length_append, sendEvents_length,
    flatMap_length_const _ 24 sendEvents_length, List.length_cons, List.length_nil]
  omega

theorem shortReadEvents_length (n : Nat) : (shortReadEvents n).length = 52 := rfl

theorem longReadEvents_length (n : Nat) : (longReadEvents n).length = 427 := by
  simp only [longReadEvents, bracket, List.length_append, sendEvents_length,
    flatMap_length_const _ 25 (fun k => recvEvents_length (n + 8 * k)), List.length_cons,
    List.length_nil, List.length_range]

theorem commandEvents_length (payload : List Byte) (us : Nat) (r : Resp) (n : Nat)
    (h : payload.length = 8) :
    (commandEvents payload us r n).length = match r with | .short => 272 | .long => 647 := by
  cases r <;>
    simp [commandEvents, readEvents, writeEvents_length, shortReadEvents_length,
      longReadEvents_length, h]

theorem pulses_append (a b : List Event) : pulses (a ++ b) = pulses a + pulses b :=
  List.count_append

theorem flatMap_pulses_const {α : Type} (f : α → List Event) (c : Nat) (h : ∀ a, pulses (f a) = c)
    (l : List α) : pulses (l.flatMap f) = l.length * c := by
  induction l with
  | nil => simp [pulses]
  | cons a l ih => rw [List.flatMap_cons, pulses_append, h, ih, List.length_cons, Nat.add_mul]; omega

theorem sendEvents_pulses (b : Byte) : pulses (sendEvents b) = 8 := rfl

theorem recvEvents_pulses (n : Nat) : pulses (recvEvents n) = 8 := rfl

theorem commandEvents_pulses (payload : List Byte) (us : Nat) (r : Resp) (n : Nat)
    (h : payload.length = 8) :
    pulses (commandEvents payload us r n) = match r with | .short => 72 + 16 | .long => 72 + 136 := by
  have e : pulses ([.dir .output, .en .asserted] : List Event) = 0 := rfl
  have e' : pulses ([.en .released] : List Event) = 0 := rfl
  have e'' : pulses ([.settle us] : List Event) = 0 := rfl
  cases r <;>
    simp only [commandEvents, readEvents, writeEvents, shortReadEvents, longReadEvents, bracket,
      pulses_append, sendEvents_pulses, recvEvents_pulses,
      flatMap_pulses_const _ 8 sendEvents_pulses,
      flatMap_pulses_const _ 8 (fun k => recvEvents_pulses (n + 8 * k)), e, e', e'', h,
      List.length_range]

/-! ### Line levels -/

theorem replay_append (l : Lines) (a b : List Event) :
    l.replay (a ++ b) = (l.replay a).replay b := List.foldl_append

theorem replay_cons (l : Lines) (e : Event) (tr : List Event) :
    l.replay (e :: tr) = (l.after e).replay tr := rfl

theorem replay_sendEvents (l : Lines) (b : Byte) :
    l.replay (sendEvents b) = { l with dout := b.getLsbD 0, clk := false } := by
  simp only [Lines.replay, sendEvents, sendCell, List.flatMap_cons, List.flatMap_nil,
    List.cons_append, List.nil_append, List.foldl_cons, List.foldl_nil, Lines.after]

theorem replay_recvEvents (l : Lines) (n : Nat) :
    l.replay (recvEvents n) = { l with ddir := .input, clk := false } := by
  simp only [Lines.replay, recvEvents, recvCell, List.flatMap_cons, List.flatMap_nil,
    List.cons_append, List.nil_append, List.foldl_cons, List.foldl_nil, Lines.after]

/-! ### Lists of bytes between the same levels -/

/-- The levels while the initiator sends inside a bracket. -/
def sending (d : Bit) : Lines := { en := .asserted, clk := false, ddir := .output, dout := d }

/-- The levels while the initiator receives inside a bracket. -/
def receiving (d : Bit) : Lines := { en := .asserted, clk := false, ddir := .input, dout := d }

theorem replay_sends (d : Bit) (bs : List Byte) :
    ∃ d', (sending d).replay (bs.flatMap sendEvents) = sending d' := by
  induction bs generalizing d with
  | nil => exact ⟨d, rfl⟩
  | cons b bs ih =>
    obtain ⟨d', h⟩ := ih (b.getLsbD 0)
    exact ⟨d', by rw [List.flatMap_cons, replay_append, replay_sendEvents]; exact h⟩

theorem replay_recvs (d : Bit) (n : Nat) (ks : List Nat) :
    (receiving d).replay (ks.flatMap fun k => recvEvents (n + 8 * k)) = receiving d := by
  induction ks with
  | nil => rfl
  | cons k ks ih => rw [List.flatMap_cons, replay_append, replay_recvEvents]; exact ih

/-! ### Discipline -/

theorem disciplined_append (l : Lines) (a b : List Event) :
    disciplined l (a ++ b) = (disciplined l a && disciplined (l.replay a) b) := by
  induction a generalizing l with
  | nil => simp [disciplined, Lines.replay]
  | cons e a ih => rw [List.cons_append]; simp only [disciplined, ih, replay_cons, Bool.and_assoc]

theorem disciplined_sendEvents (d : Bit) (b : Byte) : disciplined (sending d) (sendEvents b) = true := by
  simp [sendEvents, sendCell, disciplined, allowed, Lines.after, sending]

theorem disciplined_recvEvents (l : Lines) (n : Nat) (h : l.en = .asserted) (hc : l.clk = false) :
    disciplined l (recvEvents n) = true := by
  simp [recvEvents, recvCell, disciplined, allowed, Lines.after, h, hc]

theorem disciplined_sends (d : Bit) (bs : List Byte) :
    disciplined (sending d) (bs.flatMap sendEvents) = true := by
  induction bs generalizing d with
  | nil => rfl
  | cons b bs ih =>
    rw [List.flatMap_cons, disciplined_append, disciplined_sendEvents, replay_sendEvents]
    exact ih _

theorem disciplined_recvs (d : Bit) (n : Nat) (ks : List Nat) :
    disciplined (receiving d) (ks.flatMap fun k => recvEvents (n + 8 * k)) = true := by
  induction ks with
  | nil => rfl
  | cons k ks ih =>
    rw [List.flatMap_cons, disciplined_append, disciplined_recvEvents _ _ rfl rfl, replay_recvEvents]
    exact ih

theorem disciplined_writeEvents (l : Lines) (payload : List Byte) (he : l.en = .released)
    (hc : l.clk = false) : disciplined l (writeEvents payload) = true := by
  obtain ⟨d, hd⟩ := replay_sends ((0x48 : Byte).getLsbD 0) payload
  have h1 : l.replay ([.dir .output, .en .asserted] : List Event) = sending l.dout := by
    simp [Lines.replay, Lines.after, sending, hc]
  have h2 : (sending l.dout).replay (sendEvents 0x48) = sending ((0x48 : Byte).getLsbD 0) := rfl
  simp only [writeEvents, bracket, disciplined_append, replay_append, h1, h2, hd,
    disciplined_sendEvents, disciplined_sends]
  simp [disciplined, allowed, Lines.after, he, hc, sending]

theorem disciplined_shortReadEvents (l : Lines) (n : Nat) (he : l.en = .released)
    (hc : l.clk = false) : disciplined l (shortReadEvents n) = true := by
  have h1 : l.replay ([.dir .output, .en .asserted] : List Event) = sending l.dout := by
    simp [Lines.replay, Lines.after, sending, hc]
  have h2 : (sending l.dout).replay (sendEvents 0x80) = sending ((0x80 : Byte).getLsbD 0) := rfl
  simp only [shortReadEvents, bracket, disciplined_append, replay_append, h1, h2,
    disciplined_sendEvents, disciplined_recvEvents _ _ (rfl : (sending _).en = _) rfl,
    replay_recvEvents]
  simp [disciplined, allowed, Lines.after, he, hc, sending]

/-- The first byte received turns the line round; the rest find it turned. -/
theorem recvs_replay_sending (d : Bit) (n : Nat) (k : Nat) (ks : List Nat) :
    (sending d).replay ((k :: ks).flatMap fun k => recvEvents (n + 8 * k)) = receiving d := by
  rw [List.flatMap_cons, replay_append, replay_recvEvents]
  exact replay_recvs d n ks

theorem disciplined_recvs_sending (d : Bit) (n : Nat) (k : Nat) (ks : List Nat) :
    disciplined (sending d) ((k :: ks).flatMap fun k => recvEvents (n + 8 * k)) = true := by
  rw [List.flatMap_cons, disciplined_append, disciplined_recvEvents _ _ rfl rfl, replay_recvEvents]
  exact disciplined_recvs d n ks

theorem range_sixteen : List.range 16 = 0 :: (List.range 15).map (· + 1) := rfl

theorem disciplined_longReadEvents (l : Lines) (n : Nat) (he : l.en = .released)
    (hc : l.clk = false) : disciplined l (longReadEvents n) = true := by
  have h1 : l.replay ([.dir .output, .en .asserted] : List Event) = sending l.dout := by
    simp [Lines.replay, Lines.after, sending, hc]
  have h2 : (sending l.dout).replay (sendEvents 0xC0) = sending ((0xC0 : Byte).getLsbD 0) := rfl
  simp only [longReadEvents, bracket, disciplined_append, replay_append, h1, h2,
    disciplined_sendEvents, range_sixteen, recvs_replay_sending, disciplined_recvs_sending]
  simp [disciplined, allowed, Lines.after, he, hc, receiving]

/-! ### Levels after each transaction -/

theorem replay_open (l : Lines) (c : Byte) :
    l.replay ([.dir .output, .en .asserted] ++ sendEvents c) = sending (c.getLsbD 0) := by
  rw [replay_append, replay_sendEvents]
  rfl

theorem replay_close (l : Lines) :
    l.replay ([.en .released] : List Event) = { l with en := .released } := rfl

theorem replay_writeEvents (l : Lines) (b0 b1 b2 b3 b4 b5 b6 b7 : Byte) :
    l.replay (writeEvents [b0, b1, b2, b3, b4, b5, b6, b7]) =
      { en := .released, clk := false, ddir := .output, dout := b7.getLsbD 0 } := by
  simp only [writeEvents, bracket, List.flatMap_cons, List.flatMap_nil, List.append_nil]
  rw [replay_append, replay_append, replay_open, replay_close]
  simp only [replay_append, replay_sendEvents, sending]

theorem replay_shortReadEvents (l : Lines) (n : Nat) :
    l.replay (shortReadEvents n) =
      { en := .released, clk := false, ddir := .input, dout := false } := by
  simp only [shortReadEvents, bracket]
  rw [replay_append, replay_append, replay_open, replay_close, replay_recvEvents]
  rfl

theorem replay_longReadEvents (l : Lines) (n : Nat) :
    l.replay (longReadEvents n) =
      { en := .released, clk := false, ddir := .input, dout := false } := by
  simp only [longReadEvents, bracket]
  rw [replay_append, replay_append, replay_open, replay_close, range_sixteen, recvs_replay_sending]
  rfl

/-! ### The bits on the wire -/

theorem wireBits_append (l : Lines) (a b : List Event) :
    wireBits l (a ++ b) = wireBits l a ++ wireBits (l.replay a) b := by
  induction a generalizing l with
  | nil => rfl
  | cons e a ih =>
    simp only [List.cons_append, wireBits, ih, replay_cons]
    split
    · split <;> simp
    · rfl

theorem wireBits_sendEvents (d : Bit) (b : Byte) : wireBits (sending d) (sendEvents b) = byteBits b := rfl

theorem wireBits_sends (d : Bit) (bs : List Byte) :
    wireBits (sending d) (bs.flatMap sendEvents) = bs.flatMap byteBits := by
  induction bs generalizing d with
  | nil => rfl
  | cons b bs ih =>
    rw [List.flatMap_cons, List.flatMap_cons, wireBits_append, wireBits_sendEvents, replay_sendEvents]
    exact congrArg _ (ih _)

theorem wireBits_recvEvents (l : Lines) (n : Nat) : wireBits l (recvEvents n) = [] := by
  simp [recvEvents, recvCell, wireBits, Lines.after]

theorem wireBits_recvs (l : Lines) (n : Nat) (ks : List Nat) :
    wireBits l (ks.flatMap fun k => recvEvents (n + 8 * k)) = [] := by
  induction ks generalizing l with
  | nil => rfl
  | cons k ks ih => rw [List.flatMap_cons, wireBits_append, wireBits_recvEvents, ih]; rfl

/-! ### The pulses one by one -/

theorem linePulses_append (l : Lines) (a b : List Event) :
    linePulses l (a ++ b) = linePulses l a ++ linePulses (l.replay a) b := by
  induction a generalizing l with
  | nil => rfl
  | cons e a ih =>
    rw [List.cons_append, replay_cons]
    cases e with
    | clk b =>
      cases b
      · simp only [linePulses, ih]
      · simp only [linePulses, ih]
        split <;> simp
    | sample b =>
      simp only [linePulses, ih]
      rfl
    | en _ => simp only [linePulses, ih]
    | dir _ => simp only [linePulses, ih]
    | dout _ => simp only [linePulses, ih]
    | settle _ => simp only [linePulses, ih]

theorem linePulses_sendEvents (d : Bit) (b : Byte) :
    linePulses (sending d) (sendEvents b) = (byteBits b).map fun v => (.asserted, .output, v) := rfl

theorem linePulses_sends (d : Bit) (bs : List Byte) :
    linePulses (sending d) (bs.flatMap sendEvents) =
      bs.flatMap fun b => (byteBits b).map fun v => (.asserted, .output, v) := by
  induction bs generalizing d with
  | nil => rfl
  | cons b bs ih =>
    rw [List.flatMap_cons, List.flatMap_cons, linePulses_append, linePulses_sendEvents,
      replay_sendEvents]
    exact congrArg _ (ih _)

/-- The bits of a device byte are its eight draws in order. -/
theorem byteBits_deviceByte (n : Nat) :
    byteBits (deviceByte n) = [0, 1, 2, 3, 4, 5, 6, 7].map fun i => Config.deviceBit (n + i) := by
  have e : ∀ i, (deviceByte n).getLsbD i = _ := fun i => by
    unfold deviceByte
    rw [append_ofBool_getLsbD, append_ofBool_getLsbD, append_ofBool_getLsbD, append_ofBool_getLsbD,
      append_ofBool_getLsbD, append_ofBool_getLsbD, append_ofBool_getLsbD]
  simp only [byteBits, List.map_cons, List.map_nil, e]
  simp

theorem linePulses_recvEvents (l : Lines) (n : Nat) (h : l.en = .asserted) :
    linePulses l (recvEvents n) = (byteBits (deviceByte n)).map fun v => (.asserted, .input, v) := by
  rw [byteBits_deviceByte]
  simp [recvEvents, recvCell, linePulses, Lines.after, h]

theorem linePulses_recvs (l : Lines) (n : Nat) (ks : List Nat) (h : l.en = .asserted) :
    linePulses l (ks.flatMap fun k => recvEvents (n + 8 * k)) =
      ks.flatMap fun k => (byteBits (deviceByte (n + 8 * k))).map fun v => (.asserted, .input, v) := by
  induction ks generalizing l with
  | nil => rfl
  | cons k ks ih =>
    rw [List.flatMap_cons, List.flatMap_cons, linePulses_append, linePulses_recvEvents _ _ h,
      replay_recvEvents, ih]
    exact h

/-! ### Time -/

theorem traceTime_append (t : BitTiming) (l : Lines) (a b : List Event) :
    traceTime t l (a ++ b) = traceTime t l a + traceTime t (l.replay a) b := by
  induction a generalizing l with
  | nil => simp [traceTime, Lines.replay]
  | cons e a ih => rw [List.cons_append]; simp only [traceTime, ih, replay_cons, Nat.add_assoc]

theorem traceTime_sendEvents (t : BitTiming) (l : Lines) (b : Byte) :
    traceTime t l (sendEvents b) = 8 * t.sendCell := by
  simp only [sendEvents, sendCell, List.flatMap_cons, List.flatMap_nil, List.cons_append,
    List.nil_append, traceTime, eventTime, BitTiming.sendCell]
  omega

theorem traceTime_sends (t : BitTiming) (l : Lines) (bs : List Byte) :
    traceTime t l (bs.flatMap sendEvents) = bs.length * (8 * t.sendCell) := by
  induction bs generalizing l with
  | nil => simp [traceTime]
  | cons b bs ih =>
    rw [List.flatMap_cons, traceTime_append, traceTime_sendEvents, ih, List.length_cons, Nat.add_mul]
    omega

theorem traceTime_recvEvents (t : BitTiming) (l : Lines) (n : Nat) :
    traceTime t l (recvEvents n) = (if l.ddir = .output then t.tTurn else 0) + 8 * t.recvCell := by
  simp only [recvEvents, recvCell, List.flatMap_cons, List.flatMap_nil, List.cons_append,
    List.nil_append, traceTime, eventTime, BitTiming.recvCell]
  omega

theorem traceTime_recvs (t : BitTiming) (l : Lines) (n : Nat) (ks : List Nat) (h : l.ddir = .input) :
    traceTime t l (ks.flatMap fun k => recvEvents (n + 8 * k)) = ks.length * (8 * t.recvCell) := by
  induction ks generalizing l with
  | nil => simp [traceTime]
  | cons k ks ih =>
    rw [List.flatMap_cons, traceTime_append, traceTime_recvEvents, ih _ (by rw [replay_recvEvents]), h,
      List.length_cons, Nat.add_mul]
    simp
    omega

/-! ### Waveforms -/

/-- The waveform keeps an event that belongs to it at these levels and goes on from the levels after it. -/
theorem waveform_cons (l : Lines) (e : Event) (tr : List Event) :
    waveform l (e :: tr) = (if inWaveform l e then [e] else []) ++ waveform (l.after e) tr := by
  have key : ∀ (p : Prop) [Decidable p] (m : Lines), (p → m = l) → (m = l → p) →
      (if p then waveform l tr else e :: waveform m tr) =
        (if decide (m ≠ l) then [e] else []) ++ waveform m tr := by
    intro p _ m h₁ h₂
    by_cases h : p
    · simp [h, h₁ h]
    · simp [h, show m ≠ l from fun hm => h (h₂ hm)]
  cases e with
  | sample b => simp [waveform, inWaveform, Lines.after]
  | settle us => rfl
  | en x => exact key _ _ (by rintro rfl; rfl) (fun h => by rw [← h])
  | clk x => exact key _ _ (by rintro rfl; rfl) (fun h => by rw [← h])
  | dir x => exact key _ _ (by rintro rfl; rfl) (fun h => by rw [← h])
  | dout x => exact key _ _ (by rintro rfl; rfl) (fun h => by rw [← h])

end Sys2Proof.Safety
end

