-- ==== Sys2Proof/Laws/Exec.lean ====
section
/-! SUPPORT. One inversion law for `exec` and one for `step`: everything an instruction, and a step, can do. -/

namespace Sys2Proof.Machine

open Safety

/-- What a command does to MODE and PWR before it stages (R102, second part). -/
def beforeOf : Instr → State → State
  | .powerUp setup _, s => s.poweredUp setup
  | .powerDown, s => s.poweredDown
  | _, s => s

/-- Every command is one run of EXEC over a command that fits when the instruction is well formed, needs
its band, and stages its encoding. -/
theorem exec_command (i : Instr) (h : i.isCommand = true) (s : State) :
    ∃ c : Command, c.staged.length ≤ 8 ∧ padded c.staged = encode s.params i ∧ c.fits = i.wellFormed ∧
      c.band = neededBand i ∧ exec i s = runCommand c (beforeOf i) s := by
  cases i
  case fmSeekStart arg1 cap =>
    refine ⟨{ fits := fitsU8 arg1 && fitsU16 cap
              band := some .fm
              antcapOk := decide (s.params.seekFmLayout = .arg1Only) || antcapAllowed s.params cap
              staged := match s.params.seekFmLayout with
                | .antcap => [0x21, toU8 arg1, 0x00, 0x00, a8 cap]
                | .arg1Only => [0x21, toU8 arg1]
              settle := settleBase
              resp := .short }, ?_, ?_, rfl, rfl, rfl⟩ <;>
      cases hl : s.params.seekFmLayout <;>
      simp [encode, hl]
  case getRev => exact ⟨⟨true, none, true, [0x10], settleBase, .long⟩, by decide, rfl, rfl, rfl, rfl⟩
  case powerDown => exact ⟨⟨true, none, true, [0x11], settleBase, .short⟩, by decide, rfl, rfl, rfl, rfl⟩
  case getIntStatus => exact ⟨⟨true, none, true, [0x14], settleBase, .short⟩, by decide, rfl, rfl, rfl, rfl⟩
  all_goals first
    | exact absurd h Bool.false_ne_true
    | exact ⟨_, Nat.le_of_ble_eq_true rfl, rfl, rfl, rfl, rfl⟩

/-- MODE, PWR and nothing else change before staging. -/
theorem beforeOf_frame (i : Instr) (s : State) :
    beforeOf i s = { s with mode := (beforeOf i s).mode, pwr := (beforeOf i s).pwr } := by
  cases i <;> rfl

/-- Every instruction but the commands and `antcap` is one operation that cannot fail. -/
theorem exec_micro (i : Instr) (h : i.isCommand = false) (ha : i ≠ .antcap) :
    ∃ op : State → State, (∀ s, exec i s = runMicro op s) ∧
      ((i = .writeTxn ∧ op = State.writeTxn) ∨ (i = .shortReadTxn ∧ op = State.shortReadTxn) ∨
       (i = .longReadTxn ∧ op = State.longReadTxn) ∨ (∃ b, i = .sendByte b ∧ op = State.sendByte b) ∨
       (i = .recvByte ∧ op = fun s => s.recvByte.give (.u8 s.recvByte.sr)) ∨
       (isAccessor i = true ∧ ∃ v : State → Value, op = fun s => s.give (v s))) := by
  cases i
  case antcap => exact absurd rfl ha
  case writeTxn => exact ⟨_, fun _ => rfl, .inl ⟨rfl, rfl⟩⟩
  case shortReadTxn => exact ⟨_, fun _ => rfl, .inr (.inl ⟨rfl, rfl⟩)⟩
  case longReadTxn => exact ⟨_, fun _ => rfl, .inr (.inr (.inl ⟨rfl, rfl⟩))⟩
  case sendByte b => exact ⟨_, fun _ => rfl, .inr (.inr (.inr (.inl ⟨b, rfl, rfl⟩)))⟩
  case recvByte => exact ⟨_, fun _ => rfl, .inr (.inr (.inr (.inr (.inl ⟨rfl, rfl⟩))))⟩
  all_goals first
    | exact absurd h.symm Bool.false_ne_true
    | exact ⟨_, fun _ => rfl, .inr (.inr (.inr (.inr (.inr ⟨rfl, _, rfl⟩))))⟩

/-- All that `antcap` can do (R141). -/
theorem exec_antcap (s : State) :
    (s.fault ≠ 0 ∧ exec .antcap s = .fault .stuck) ∨
    (s.fault = 0 ∧ s.band = some .fm ∧ exec .antcap s = .next (s.give (.u16 (zext16 (s.readBuf 7))))) ∨
    (s.fault = 0 ∧ s.band = some .am ∧
      exec .antcap s = .next (s.give (.u16 (be16 (s.readBuf 6) (s.readBuf 7))))) ∨
    (s.fault = 0 ∧ s.band = none ∧ exec .antcap s = .next (s.raise .modeUndefined)) := by
  by_cases h : s.fault = 0
  · have e : exec .antcap s = match s.band with
      | some .fm => .next (s.give (.u16 (zext16 (s.readBuf 7))))
      | some .am => .next (s.give (.u16 (be16 (s.readBuf 6) (s.readBuf 7))))
      | none => .next (s.raise .modeUndefined) := by
      show execAntcap s = _
      unfold execAntcap
      exact State.guarded_ok s _ h
    rcases hb : s.band with _ | _ | _ <;> rw [hb] at e <;> simp [h, e]
  · exact .inl ⟨h, by
      rw [show exec .antcap s = execAntcap s from rfl, execAntcap, State.guarded_stuck s _ h]⟩

/-- A stuck block runs nothing (60_exceptions.md R149). -/
theorem exec_stuck (i : Instr) (s : State) (h : s.fault ≠ 0) : exec i s = .fault .stuck := by
  by_cases hc : i.isCommand = true
  · obtain ⟨c, -, -, -, -, he⟩ := exec_command i hc s
    rw [he]
    exact State.guarded_stuck s _ h
  · by_cases ha : i = .antcap
    · subst ha
      rw [show exec .antcap s = execAntcap s from rfl, execAntcap, State.guarded_stuck s _ h]
    · obtain ⟨op, he, -⟩ := exec_micro i (by simpa using hc) ha
      rw [he s]
      exact State.guarded_stuck s _ h

/-- Everything a next state of an instruction can be. -/
theorem exec_next (i : Instr) (s t : State) (h : exec i s = .next t) :
    s.fault = 0 ∧
    ((∃ k, t = s.raise k) ∨
     (∃ c : Command, i.isCommand = true ∧ c.staged.length ≤ 8 ∧ padded c.staged = encode s.params i ∧
        t = (beforeOf i s).exchange c) ∨
     (i = .writeTxn ∧ t = s.writeTxn) ∨ (i = .shortReadTxn ∧ t = s.shortReadTxn) ∨
     (i = .longReadTxn ∧ t = s.longReadTxn) ∨ (∃ b, i = .sendByte b ∧ t = s.sendByte b) ∨
     (i = .recvByte ∧ t = s.recvByte.give (.u8 s.recvByte.sr)) ∨
     (isAccessor i = true ∧ ∃ v, t = s.give v)) := by
  have hf : s.fault = 0 := by
    by_contra hne
    rw [exec_stuck i s hne] at h
    cases h
  refine ⟨hf, ?_⟩
  by_cases hc : i.isCommand = true
  · obtain ⟨c, hl, hp, -, -, he⟩ := exec_command i hc s
    rw [he] at h
    rcases runCommand_cases c (beforeOf i) s with ⟨hn, -⟩ | ⟨-, k, -, e⟩ | ⟨-, -, e⟩
    · exact absurd hf hn
    · rw [e] at h; cases h; exact .inl ⟨k, rfl⟩
    · rw [e] at h; cases h; exact .inr (.inl ⟨c, hc, hl, hp, rfl⟩)
  · by_cases ha : i = .antcap
    · subst ha
      rcases exec_antcap s with ⟨hn, -⟩ | ⟨-, -, e⟩ | ⟨-, -, e⟩ | ⟨-, -, e⟩
      · exact absurd hf hn
      · rw [e] at h; cases h; exact .inr (.inr (.inr (.inr (.inr (.inr (.inr ⟨rfl, _, rfl⟩))))))
      · rw [e] at h; cases h; exact .inr (.inr (.inr (.inr (.inr (.inr (.inr ⟨rfl, _, rfl⟩))))))
      · rw [e] at h; cases h; exact .inl ⟨_, rfl⟩
    · obtain ⟨op, he, hop⟩ := exec_micro i (by simpa using hc) ha
      rw [he s, runMicro, State.guarded_ok s _ hf] at h
      cases h
      rcases hop with ⟨e, rfl⟩ | ⟨e, rfl⟩ | ⟨e, rfl⟩ | ⟨b, e, rfl⟩ | ⟨e, rfl⟩ | ⟨e, v, rfl⟩
      · exact .inr (.inr (.inl ⟨e, rfl⟩))
      · exact .inr (.inr (.inr (.inl ⟨e, rfl⟩)))
      · exact .inr (.inr (.inr (.inr (.inl ⟨e, rfl⟩))))
      · exact .inr (.inr (.inr (.inr (.inr (.inl ⟨b, e, rfl⟩)))))
      · exact .inr (.inr (.inr (.inr (.inr (.inr (.inl ⟨e, rfl⟩))))))
      · exact .inr (.inr (.inr (.inr (.inr (.inr (.inr ⟨e, v s, rfl⟩))))))

theorem raise_fault_ne (k : FaultBit) (s : State) (h : s.fault = 0) : (s.raise k).fault ≠ 0 := by
  rw [State.raise_fault, h]
  cases k <;> decide

/-- A command's fixed part depends on the open parameters alone, not on the rest of the state. -/
theorem exec_command_of_params (i : Instr) (h : i.isCommand = true) (p : Params) :
    ∃ c : Command, c.staged.length ≤ 8 ∧ padded c.staged = encode p i ∧
      ∀ s : State, s.params = p → exec i s = runCommand c (beforeOf i) s := by
  cases i
  case fmSeekStart arg1 cap =>
    refine ⟨{ fits := fitsU8 arg1 && fitsU16 cap
              band := some .fm
              antcapOk := decide (p.seekFmLayout = .arg1Only) || antcapAllowed p cap
              staged := match p.seekFmLayout with
                | .antcap => [0x21, toU8 arg1, 0x00, 0x00, a8 cap]
                | .arg1Only => [0x21, toU8 arg1]
              settle := settleBase
              resp := .short }, ?_, ?_, ?_⟩
    · cases p.seekFmLayout <;> simp
    · cases hl : p.seekFmLayout <;> simp [encode, hl]
    · rintro s rfl; rfl
  case fmTuneFreq setup freq cap =>
    refine ⟨{ fits := fitsU8 setup && fitsU16 freq && fitsU16 cap
              band := some .fm
              antcapOk := antcapAllowed p cap
              staged := [0x20, toU8 setup, hi (toU16 freq), lo (toU16 freq), a8 cap]
              settle := settleFmTune
              resp := .short }, by simp, rfl, ?_⟩
    rintro s rfl; rfl
  case getRev => exact ⟨⟨true, none, true, [0x10], settleBase, .long⟩, by decide, rfl, fun _ _ => rfl⟩
  case powerDown => exact ⟨⟨true, none, true, [0x11], settleBase, .short⟩, by decide, rfl, fun _ _ => rfl⟩
  case getIntStatus =>
    exact ⟨⟨true, none, true, [0x14], settleBase, .short⟩, by decide, rfl, fun _ _ => rfl⟩
  all_goals first
    | exact absurd h Bool.false_ne_true
    | exact ⟨_, Nat.le_of_ble_eq_true rfl, rfl, fun _ _ => rfl⟩

/-- A command that answers a next state with FAULT 0 ran whole. -/
theorem command_ran (i : Instr) (s t : State) (hc : i.isCommand = true) (h : exec i s = .next t)
    (ht : t.fault = 0) :
    ∃ c : Command, s.fault = 0 ∧ c.staged.length ≤ 8 ∧ padded c.staged = encode s.params i ∧
      s.admission c = none ∧ t = (beforeOf i s).exchange c ∧
      t.trace = s.trace ++ commandEvents (encode s.params i) c.settle c.resp s.draws := by
  obtain ⟨c, hl, hp, -, -, he⟩ := exec_command i hc s
  rw [he] at h
  rcases runCommand_cases c (beforeOf i) s with ⟨-, e⟩ | ⟨hf, k, -, e⟩ | ⟨hf, ha, e⟩
  · rw [e] at h; cases h
  · rw [e] at h; cases h; exact absurd ht (raise_fault_ne k s hf)
  · rw [e] at h; cases h
    refine ⟨c, hf, hl, hp, ha, rfl, ?_⟩
    rw [State.exchange_eq _ _ hl, beforeOf_frame, ← hp]

/-! ### Requests -/

/-- What the caller can ask for: a command or an accessor, and no micro-operation (30_encoding.md R57). -/
def Requestable (i : Instr) : Prop := i.isCommand = true ∨ isAccessor i = true

theorem call0_requestable (ops : List Nat) (i j : Instr) (h : call0 ops i = some j)
    (hi : Requestable i) : Requestable j := by
  unfold call0 at h; split at h <;> cases h; exact hi

theorem call1_requestable (ops : List Nat) (f : Nat → Instr) (j : Instr) (h : call1 ops f = some j)
    (hi : ∀ a, Requestable (f a)) : Requestable j := by
  unfold call1 at h; split at h <;> cases h; exact hi _

theorem call2_requestable (ops : List Nat) (f : Nat → Nat → Instr) (j : Instr)
    (h : call2 ops f = some j) (hi : ∀ a b, Requestable (f a b)) : Requestable j := by
  unfold call2 at h; split at h <;> cases h; exact hi _ _

theorem call3_requestable (ops : List Nat) (f : Nat → Nat → Nat → Instr) (j : Instr)
    (h : call3 ops f = some j) (hi : ∀ a b c, Requestable (f a b c)) : Requestable j := by
  unfold call3 at h; split at h <;> cases h; exact hi _ _ _

theorem callTable_requestable (b : Band) (ops : List Nat) (i : Instr) :
    ∀ e ∈ callTable b ops, e.2 = some i → Requestable i := by
  intro e he h
  simp only [callTable, List.cons_append, List.nil_append, List.mem_cons, List.not_mem_nil,
    or_false] at he
  repeat' rcases he with rfl | he
  all_goals cases b
  all_goals first
    | exact call0_requestable _ _ _ h (.inl rfl)
    | exact call0_requestable _ _ _ h (.inr rfl)
    | exact call1_requestable _ _ _ h (fun _ => .inl rfl)
    | exact call2_requestable _ _ _ h (fun _ _ => .inl rfl)
    | exact call3_requestable _ _ _ h (fun _ _ _ => .inl rfl)

theorem instrOfCall_requestable (p : Params) (m : Mode) (name : String) (ops : List Nat) (i : Instr)
    (h : instrOfCall p m name ops = some i) : Requestable i := by
  unfold instrOfCall at h
  split at h
  · rename_i r hr
    subst h
    obtain ⟨l₁, l₂, he, -⟩ := List.lookup_eq_some_iff.mp hr
    exact callTable_requestable _ _ _ (name, some i) (by rw [he]; simp) rfl
  · cases h

theorem payloadRows_command (p : Params) (b1 b2 b3 b4 b5 : Byte) :
    ∀ r ∈ payloadRows p b1 b2 b3 b4 b5, r.instr.isCommand = true := by
  intro r hr
  simp only [payloadRows, List.cons_append, List.nil_append, List.mem_cons, List.not_mem_nil,
    or_false] at hr
  repeat' rcases hr with rfl | hr
  all_goals first
    | rfl
    | (cases p.seekFmLayout <;> rfl)

theorem decode_hasEncoding (p : Params) (bytes : List Byte) (i : Instr) (h : decode p bytes = .ok i) :
    i.hasEncoding = true := by
  unfold decode at h
  split at h
  · unfold decodeCtrl at h
    split at h
    · cases h; rfl
    · split at h
      · cases h; rfl
      · split at h <;> cases h; rfl
  · unfold decodePayload at h
    split at h
    · split at h
      · cases h
      · rename_i r hr
        have hc := payloadRows_command _ _ _ _ _ _ r (List.mem_of_find?_eq_some hr)
        split at h
        · cases h
        · split at h <;> cases h
          simp [Instr.hasEncoding, hc]
    · cases h

theorem commandOf_command (d : Except DecodeError Instr) (i : Instr) (h : commandOf d = some i) :
    i.isCommand = true := by
  unfold commandOf at h
  split at h
  · split at h
    · rename_i hc
      cases h
      exact hc
    · cases h
  · cases h

theorem requested_requestable (s : State) (r : Request) (i : Instr) (h : requested s r = some i) :
    Requestable i := by
  unfold requested at h
  split at h
  · cases h
  · exact instrOfCall_requestable _ _ _ _ _ h
  · split at h
    · exact instrOfCall_requestable _ _ _ _ _ h
    · cases h
  · exact .inl (commandOf_command _ _ h)

/-- Everything a next state can be of an instruction the caller can ask for: a fault raised, a command run
whole, or a value handed back. -/
theorem exec_next_requestable (i : Instr) (s t : State) (hq : Requestable i) (h : exec i s = .next t) :
    (∃ k, t = s.raise k) ∨
    (∃ c : Command, i.isCommand = true ∧ c.staged.length ≤ 8 ∧ padded c.staged = encode s.params i ∧
      t = (beforeOf i s).exchange c) ∨
    (isAccessor i = true ∧ ∃ v, t = s.give v) := by
  obtain ⟨-, hc⟩ := exec_next i s t h
  rcases hc with hk | hr | ⟨rfl, -⟩ | ⟨rfl, -⟩ | ⟨rfl, -⟩ | ⟨b, rfl, -⟩ | ⟨rfl, -⟩ | hg
  · exact .inl hk
  · exact .inr (.inl hr)
  · rcases hq with hq | hq <;> cases hq
  · rcases hq with hq | hq <;> cases hq
  · rcases hq with hq | hq <;> cases hq
  · rcases hq with hq | hq <;> cases hq
  · rcases hq with hq | hq <;> cases hq
  · exact .inr (.inr hg)

/-! ### One step -/

/-- Everything a next state of a step can be. -/
theorem step_next (s t : State) (h : step s = .next t) :
    (s.calls = [] ∧ s.fault = 0 ∧ t = s) ∨
    (∃ rest, s.calls = .reset :: rest ∧ t = (s.accept rest).restart) ∨
    (∃ r rest i, s.calls = r :: rest ∧ requested s r = some i ∧ Requestable i ∧
      exec i (s.accept rest) = .next t) ∨
    (∃ r rest, s.calls = r :: rest ∧ requested s r = none ∧ s.fault = 0 ∧
      t = (s.accept rest).raise .refused) := by
  unfold step at h
  split at h
  · rename_i hc
    by_cases hf : s.fault = 0
    · rw [State.wait, State.guarded_ok _ _ hf] at h
      cases h
      exact .inl ⟨hc, hf, rfl⟩
    · rw [State.wait, State.guarded_stuck _ _ hf] at h
      cases h
  · rename_i rest hc
    cases h
    exact .inr (.inl ⟨rest, hc, rfl⟩)
  · rename_i r rest _ hc
    split at h
    · rename_i i hi
      exact .inr (.inr (.inl ⟨r, rest, i, hc, hi, requested_requestable s r i hi, h⟩))
    · rename_i hi
      by_cases hf : s.fault = 0
      · rw [State.refuse, State.guarded_ok _ _ (by simpa using hf)] at h
        cases h
        exact .inr (.inr (.inr ⟨r, rest, hc, hi, hf, rfl⟩))
      · rw [State.refuse, State.guarded_stuck _ _ (by simpa using hf)] at h
        cases h

/-- One induction for every invariant of `step`: it is enough that each operation a step is made of keeps
it. -/
theorem step_keeps {P : State → Prop}
    (hraise : ∀ k s, P s → P (s.raise k)) (hbefore : ∀ i s, P s → P (beforeOf i s))
    (hexchange : ∀ c s, c.staged.length ≤ 8 → P s → P (s.exchange c))
    (hgive : ∀ s v, P s → P (s.give v))
    (hrestart : ∀ s, P s → P s.restart) (haccept : ∀ s rest, P s → P (s.accept rest))
    (s t : State) (h : P s) (hst : step s = .next t) : P t := by
  rcases step_next s t hst with
    ⟨-, -, rfl⟩ | ⟨rest, -, rfl⟩ | ⟨r, rest, i, -, -, hq, he⟩ | ⟨r, rest, -, -, -, rfl⟩
  · exact h
  · exact hrestart _ (haccept _ _ h)
  · have h' := haccept s rest h
    rcases exec_next_requestable i _ t hq he with ⟨k, rfl⟩ | ⟨c, -, hl, -, rfl⟩ | ⟨-, v, rfl⟩
    · exact hraise _ _ h'
    · exact hexchange _ _ hl (hbefore _ _ h')
    · exact hgive _ _ h'
  · exact hraise _ _ (haccept _ _ h)

end Sys2Proof.Machine
end

