-- ==== Sys2Proof/Laws/Operands.lean ====
section
/-! SUPPORT. The operand forms in arithmetic terms, and what MODE selects. -/

namespace Sys2Proof.Machine

open Safety

theorem toU8_eq (n : Nat) : toU8 n = byteOf n := rfl

theorem hi_toU16 (n : Nat) : hi (toU16 n) = highByte n := by
  apply BitVec.eq_of_toNat_eq
  simp only [hi, toU16, highByte, BitVec.extractLsb'_toNat, BitVec.toNat_ofNat, Nat.shiftRight_eq_div_pow]
  omega

theorem lo_toU16 (n : Nat) : lo (toU16 n) = lowByte n := by
  apply BitVec.eq_of_toNat_eq
  simp only [lo, toU16, lowByte, BitVec.extractLsb'_toNat, BitVec.toNat_ofNat, Nat.shiftRight_zero]
  omega

theorem a8_eq (n : Nat) : a8 n = lowByte n := lo_toU16 n

theorem amSetup_eq (n : Nat) : amSetup n = byteOf (n % 2) := by
  apply BitVec.eq_of_toNat_eq
  simp only [amSetup, toU8, byteOf, BitVec.toNat_and, BitVec.toNat_ofNat]
  rw [show BitVec.toNat (1 : Byte) = 2 ^ 1 - 1 from rfl, Nat.and_two_pow_sub_one_eq_mod]
  omega

theorem funcOf_eq (n : Nat) : funcOf n = BitVec.ofNat 4 (n % 16) := by
  apply BitVec.eq_of_toNat_eq
  simp only [funcOf, toU8, BitVec.extractLsb'_toNat, BitVec.toNat_ofNat, Nat.shiftRight_zero]
  omega

theorem funcOf_qlid (n : Nat) : funcOf n = qlidFunc ↔ n % 16 = 15 := by
  rw [funcOf_eq]
  constructor
  · intro h
    have := congrArg BitVec.toNat h
    simp only [BitVec.toNat_ofNat, qlidFunc] at this
    change n % 16 % 16 = 15 at this
    omega
  · intro h; rw [h]; rfl

theorem be16_toNat (h l : Byte) : (be16 h l).toNat = 256 * h.toNat + l.toNat := by
  have := l.isLt
  simp only [be16, BitVec.toNat_append]
  rw [Nat.shiftLeft_eq, Nat.mul_comm, ← Nat.two_pow_add_eq_or_of_lt this]

theorem zext16_toNat (b : Byte) : (zext16 b).toNat = b.toNat := by
  have := b.isLt
  simp only [zext16, BitVec.toNat_setWidth]
  omega

theorem sext16_toInt (b : Byte) : (sext16 b).toInt = b.toInt := by
  simp only [sext16]
  rw [BitVec.toInt_signExtend_of_le (by decide)]

/-! ### What MODE selects (R23, R100) -/

theorem band_fm (s : State) (h : InFm s) : s.band = some .fm := by
  simp [State.band, bandOf, show s.mode = _ from h, fmFunc]

theorem band_am (s : State) (h : InAm s) : s.band = some .am := by
  obtain ⟨hm, hw⟩ := h
  have : s.params.amFunc ≠ 0x0 := by
    simp only [Params.wf, Bool.and_eq_true, bne_iff_ne] at hw
    exact hw.1
  simp only [State.band, bandOf, hm, fmFunc, this, if_false, if_true]

theorem band_none (s : State) (h : InNeither s) : s.band = none := by
  obtain ⟨h0, h1⟩ := h
  unfold State.band bandOf
  cases hm : s.mode with
  | poweredDown => rfl
  | func n =>
    have hn : n ≠ fmFunc := fun e => h0 (by rw [hm, e]; rfl)
    have hn' : n ≠ s.params.amFunc := fun e => h1 (by rw [hm, e])
    simp only [hn, hn', if_false]

/-! ### Admission (60_exceptions.md R154) -/

theorem admission_unfit (s : State) (c : Command) (h : c.fits = false) :
    s.admission c = some .refused := by
  simp [State.admission, h]

theorem admission_noBand (s : State) (c : Command) (b : Band) (hf : c.fits = true)
    (hb : c.band = some b) (hs : s.band = none) : s.admission c = some .modeUndefined := by
  simp [State.admission, hf, hb, hs]

theorem admission_otherBand (s : State) (c : Command) (b m : Band) (hf : c.fits = true)
    (hb : c.band = some b) (hs : s.band = some m) (hne : m ≠ b) : s.admission c = some .refused := by
  simp [State.admission, hf, hb, hs, hne]

theorem admission_antcap (s : State) (c : Command) (b : Band) (hf : c.fits = true)
    (hb : c.band = some b) (hs : s.band = some b) (hk : c.antcapOk = false) :
    s.admission c = some .refused := by
  simp [State.admission, hf, hb, hs, hk]

/-! ### A command that passes admission completes -/

/-- What `Completes` asks of a command that writes neither MODE nor PWR. -/
theorem completes_of (i : Instr) (s : State) (c : Command) (us : Nat) (r : Resp) (payload : List Byte)
    (he : exec i s = runCommand c id s) (hf : s.fault = 0) (ha : s.admission c = none)
    (hl : c.staged.length ≤ 8) (hp : padded c.staged = payload) (hu : c.settle = us) (hr : c.resp = r) :
    Completes i s payload us r := by
  refine ⟨s.exchange c, ?_, ?_, ?_, ?_⟩
  · rw [he, runCommand_admitted c id s hf ha]; rfl
  · rw [← hp, ← hu, ← hr]; exact State.exchange_ran c s hl
  · rw [State.exchange_eq c s hl]
  · rw [State.exchange_eq c s hl]

end Sys2Proof.Machine
end

