-- ==== Sys2Proof/Laws/PerInstr.lean ====
section
/-! SUPPORT. The per-instruction family EncodedLength: an encoding is a whole payload, a control byte, or nothing (30_encoding.md R58, R64). -/

namespace Sys2Proof.Laws.EncodedLength

/-- Under all open parameters and operands: 8 bytes for a command, 1 for a transaction, none otherwise. -/
def Statement (i : Instr) : Prop :=
  ∀ p : Params, (encode p i).length = if i.isCommand then 8 else if i.isTransaction then 1 else 0

theorem powerUp (setup audioOut : Nat) : Statement (.powerUp setup audioOut) := fun _ => rfl

theorem getRev : Statement .getRev := fun _ => rfl

theorem powerDown : Statement .powerDown := fun _ => rfl

theorem setProperty (prop value : Nat) : Statement (.setProperty prop value) := fun _ => rfl

theorem getProperty (prop : Nat) : Statement (.getProperty prop) := fun _ => rfl

theorem getIntStatus : Statement .getIntStatus := fun _ => rfl

theorem fmTuneFreq (setup freq cap : Nat) : Statement (.fmTuneFreq setup freq cap) := fun _ => rfl

theorem amTuneFreq (setup freq cap : Nat) : Statement (.amTuneFreq setup freq cap) := fun _ => rfl

theorem fmSeekStart (arg1 cap : Nat) : Statement (.fmSeekStart arg1 cap) := by
  intro p
  cases h : p.seekFmLayout <;> simp [encode, h, Machine.padded, Instr.isCommand]

theorem amSeekStart (arg1 cap : Nat) : Statement (.amSeekStart arg1 cap) := fun _ => rfl

theorem fmTuneStatus (arg1 : Nat) : Statement (.fmTuneStatus arg1) := fun _ => rfl

theorem amTuneStatus (arg1 : Nat) : Statement (.amTuneStatus arg1) := fun _ => rfl

theorem fmRsqStatus (arg1 : Nat) : Statement (.fmRsqStatus arg1) := fun _ => rfl

theorem amRsqStatus (arg1 : Nat) : Statement (.amRsqStatus arg1) := fun _ => rfl

theorem fmRdsStatus (arg1 : Nat) : Statement (.fmRdsStatus arg1) := fun _ => rfl

theorem fmAgcStatus : Statement .fmAgcStatus := fun _ => rfl

theorem amAgcStatus : Statement .amAgcStatus := fun _ => rfl

theorem fmAgcOverride (rfAgcDis lnaGain : Nat) : Statement (.fmAgcOverride rfAgcDis lnaGain) := fun _ => rfl

theorem amAgcOverride (rfAgcDis lnaGain : Nat) : Statement (.amAgcOverride rfAgcDis lnaGain) := fun _ => rfl

theorem gpioCtl (arg1 : Nat) : Statement (.gpioCtl arg1) := fun _ => rfl

theorem gpioSet (arg1 : Nat) : Statement (.gpioSet arg1) := fun _ => rfl

theorem writeTxn : Statement .writeTxn := fun _ => rfl

theorem shortReadTxn : Statement .shortReadTxn := fun _ => rfl

theorem longReadTxn : Statement .longReadTxn := fun _ => rfl

theorem sendByte (b : Byte) : Statement (.sendByte b) := fun _ => rfl

theorem recvByte : Statement .recvByte := fun _ => rfl

theorem statusByte : Statement .statusByte := fun _ => rfl

theorem cts : Statement .cts := fun _ => rfl

theorem err : Statement .err := fun _ => rfl

theorem rsqInt : Statement .rsqInt := fun _ => rfl

theorem rdsInt : Statement .rdsInt := fun _ => rfl

theorem stcInt : Statement .stcInt := fun _ => rfl

theorem frequency : Statement .frequency := fun _ => rfl

theorem rssi : Statement .rssi := fun _ => rfl

theorem snr : Statement .snr := fun _ => rfl

theorem antcap : Statement .antcap := fun _ => rfl

theorem fmStereo : Statement .fmStereo := fun _ => rfl

theorem stereoBlend : Statement .stereoBlend := fun _ => rfl

theorem freqOffset : Statement .freqOffset := fun _ => rfl

end Sys2Proof.Laws.EncodedLength
end

