-- ==== Sys2Proof/Tests/Slice0.lean ====
section
/-! SUPPORT. The model's own tests: ill-formed terms, words written out from 30_encoding.md R65, the vectors of 95_test_vectors.md (named by their ids), and one witness per statement with hypotheses. -/

namespace Sys2Proof.Tests

open Machine Safety

/-! ### Small states -/

/-- The reset state with another MODE. -/
def inMode (m : Mode) : State := { State.reset with mode := m }

/-- MODE = FM. -/
def fm : State := inMode (.func 0x0)

/-- MODE = AM, for AM_FUNC = 0x1. -/
def am : State := inMode (.func 0x1)

/-- MODE = QLID. -/
def qlid : State := inMode (.func 0xF)

/-- MODE = Func(0x5), neither FM nor AM. -/
def other : State := inMode (.func 0x5)

/-- FM under FM_ANTCAP_POLICY = truncate. -/
def fmTruncate : State :=
  { fm with params := { Params.default with fmAntcapPolicy := .truncate } }

/-- FM under SEEK_FM_LAYOUT = arg1_only. -/
def fmArg1Only : State :=
  { fm with params := { Params.default with seekFmLayout := .arg1Only } }

/-- A stuck block. -/
def stuck (f : BitVec 2) : State := { fm with fault := f }

/-- BUF from its bytes, offset 0 first. -/
def bufOf (bytes : List Byte) : Memory :=
  (allOffsets.zip bytes).foldl (fun m e => m.write e.1 e.2) []

/-- A state with this MODE and BUF. -/
def viewing (m : Mode) (bytes : List Byte) : State := { inMode m with buf := bufOf bytes }

/-- One request pending. -/
def asking (s : State) (r : Request) : State := { s with calls := [r] }

/-- The state answered. -/
def after : Result → State
  | .next t => t
  | _ => State.reset

/-- The value handed back, if the answer is a next state. -/
def value : Result → Option Value
  | .next t => t.ret
  | _ => none

/-- FAULT in the answer, if it is a next state. -/
def faultOf : Result → Option (BitVec 2)
  | .next t => some t.fault
  | _ => none

/-- Whether the answer is the fault `stuck`. -/
def isStuck : Result → Bool
  | .fault .stuck => true
  | _ => false

/-- Bits gathered into bytes, MSB first. -/
def bytesOf : List Bit → List Byte
  | b7 :: b6 :: b5 :: b4 :: b3 :: b2 :: b1 :: b0 :: rest =>
    BitVec.ofNat 8 (128 * b7.toNat + 64 * b6.toNat + 32 * b5.toNat + 16 * b4.toNat + 8 * b3.toNat +
      4 * b2.toNat + 2 * b1.toNat + b0.toNat) :: bytesOf rest
  | _ => []

/-- A trace with the sampled values left out: they are free. -/
def shape (tr : List Event) : List (Option Event) :=
  tr.map fun e => match e with
    | .sample _ => none
    | e => some e

/-! ### Ill-formed terms, one per check (30_encoding.md R76) -/

theorem test_wellFormed_powerUp :
    (Instr.powerUp 256 0).wellFormed = false ∧
    (Instr.powerUp 0 256).wellFormed = false ∧
    (Instr.powerUp 255 255).wellFormed = true := by decide

theorem test_wellFormed_setProperty :
    (Instr.setProperty 65536 0).wellFormed = false ∧
    (Instr.setProperty 0 65536).wellFormed = false ∧
    (Instr.setProperty 65535 65535).wellFormed = true := by decide

theorem test_wellFormed_getProperty :
    (Instr.getProperty 65536).wellFormed = false ∧
    (Instr.getProperty 65535).wellFormed = true := by decide

theorem test_wellFormed_fmTuneFreq :
    (Instr.fmTuneFreq 256 0 0).wellFormed = false ∧
    (Instr.fmTuneFreq 0 65536 0).wellFormed = false ∧
    (Instr.fmTuneFreq 0 0 65536).wellFormed = false ∧
    (Instr.fmTuneFreq 255 65535 65535).wellFormed = true := by decide

theorem test_wellFormed_amTuneFreq :
    (Instr.amTuneFreq 256 0 0).wellFormed = false ∧
    (Instr.amTuneFreq 0 65536 0).wellFormed = false ∧
    (Instr.amTuneFreq 0 0 65536).wellFormed = false ∧
    (Instr.amTuneFreq 255 65535 65535).wellFormed = true := by decide

theorem test_wellFormed_fmSeekStart :
    (Instr.fmSeekStart 256 0).wellFormed = false ∧
    (Instr.fmSeekStart 0 65536).wellFormed = false ∧
    (Instr.fmSeekStart 255 65535).wellFormed = true := by decide

theorem test_wellFormed_amSeekStart :
    (Instr.amSeekStart 256 0).wellFormed = false ∧
    (Instr.amSeekStart 0 65536).wellFormed = false ∧
    (Instr.amSeekStart 255 65535).wellFormed = true := by decide

theorem test_wellFormed_fmTuneStatus :
    (Instr.fmTuneStatus 256).wellFormed = false ∧
    (Instr.fmTuneStatus 255).wellFormed = true := by decide

theorem test_wellFormed_amTuneStatus :
    (Instr.amTuneStatus 256).wellFormed = false ∧
    (Instr.amTuneStatus 255).wellFormed = true := by decide

theorem test_wellFormed_fmRsqStatus :
    (Instr.fmRsqStatus 256).wellFormed = false ∧
    (Instr.fmRsqStatus 255).wellFormed = true := by decide

theorem test_wellFormed_amRsqStatus :
    (Instr.amRsqStatus 256).wellFormed = false ∧
    (Instr.amRsqStatus 255).wellFormed = true := by decide

theorem test_wellFormed_fmRdsStatus :
    (Instr.fmRdsStatus 256).wellFormed = false ∧
    (Instr.fmRdsStatus 255).wellFormed = true := by decide

theorem test_wellFormed_fmAgcOverride :
    (Instr.fmAgcOverride 256 0).wellFormed = false ∧
    (Instr.fmAgcOverride 0 256).wellFormed = false ∧
    (Instr.fmAgcOverride 255 255).wellFormed = true := by decide

theorem test_wellFormed_amAgcOverride :
    (Instr.amAgcOverride 256 0).wellFormed = false ∧
    (Instr.amAgcOverride 0 256).wellFormed = false ∧
    (Instr.amAgcOverride 255 255).wellFormed = true := by decide

theorem test_wellFormed_gpioCtl :
    (Instr.gpioCtl 256).wellFormed = false ∧
    (Instr.gpioCtl 255).wellFormed = true := by decide

theorem test_wellFormed_gpioSet :
    (Instr.gpioSet 256).wellFormed = false ∧
    (Instr.gpioSet 255).wellFormed = true := by decide

/-- Instructions without checked operands are always well formed. -/
theorem test_wellFormed_rest :
    [Instr.getRev, .powerDown, .getIntStatus, .fmAgcStatus, .amAgcStatus, .writeTxn, .shortReadTxn,
      .longReadTxn, .sendByte 0xFF, .recvByte, .statusByte, .cts, .err, .rsqInt, .rdsInt, .stcInt,
      .frequency, .rssi, .snr, .antcap, .fmStereo, .stereoBlend, .freqOffset].all Instr.wellFormed = true := by
  decide

/-! ### Decoding: words written out from the rows of 30_encoding.md R65 and R59 -/

theorem test_decode_powerUp :
    decode Params.default [0x01, 0x11, 0x05, 0, 0, 0, 0, 0] = .ok (.powerUp 0x11 0x05) ∧
    encode Params.default (.powerUp 0x11 0x05) = [0x01, 0x11, 0x05, 0, 0, 0, 0, 0] := by decide

theorem test_decode_getRev :
    decode Params.default [0x10, 0, 0, 0, 0, 0, 0, 0] = .ok (.getRev) ∧
    encode Params.default (.getRev) = [0x10, 0, 0, 0, 0, 0, 0, 0] := by decide

theorem test_decode_powerDown :
    decode Params.default [0x11, 0, 0, 0, 0, 0, 0, 0] = .ok (.powerDown) ∧
    encode Params.default (.powerDown) = [0x11, 0, 0, 0, 0, 0, 0, 0] := by decide

theorem test_decode_setProperty :
    decode Params.default [0x12, 0, 0x11, 0x00, 0x00, 0x02, 0, 0] = .ok (.setProperty 0x1100 0x0002) ∧
    encode Params.default (.setProperty 0x1100 0x0002) = [0x12, 0, 0x11, 0x00, 0x00, 0x02, 0, 0] := by decide

theorem test_decode_getProperty :
    decode Params.default [0x13, 0, 0x40, 0x01, 0, 0, 0, 0] = .ok (.getProperty 0x4001) ∧
    encode Params.default (.getProperty 0x4001) = [0x13, 0, 0x40, 0x01, 0, 0, 0, 0] := by decide

theorem test_decode_getIntStatus :
    decode Params.default [0x14, 0, 0, 0, 0, 0, 0, 0] = .ok (.getIntStatus) ∧
    encode Params.default (.getIntStatus) = [0x14, 0, 0, 0, 0, 0, 0, 0] := by decide

theorem test_decode_fmTuneFreq :
    decode Params.default [0x20, 0xFF, 0x27, 0x06, 0xAB, 0, 0, 0] = .ok (.fmTuneFreq 0xFF 0x2706 0xAB) ∧
    encode Params.default (.fmTuneFreq 0xFF 0x2706 0xAB) = [0x20, 0xFF, 0x27, 0x06, 0xAB, 0, 0, 0] := by decide

theorem test_decode_amTuneFreq :
    decode Params.default [0x40, 0x01, 0x03, 0xE8, 0x01, 0x23, 0, 0] = .ok (.amTuneFreq 1 0x03E8 0x0123) ∧
    encode Params.default (.amTuneFreq 1 0x03E8 0x0123) = [0x40, 0x01, 0x03, 0xE8, 0x01, 0x23, 0, 0] := by decide

theorem test_decode_fmSeekStart :
    decode Params.default [0x21, 0x0C, 0, 0, 0x7F, 0, 0, 0] = .ok (.fmSeekStart 0x0C 0x7F) ∧
    encode Params.default (.fmSeekStart 0x0C 0x7F) = [0x21, 0x0C, 0, 0, 0x7F, 0, 0, 0] := by decide

theorem test_decode_amSeekStart :
    decode Params.default [0x41, 0x0C, 0, 0, 0x01, 0x02, 0, 0] = .ok (.amSeekStart 0x0C 0x0102) ∧
    encode Params.default (.amSeekStart 0x0C 0x0102) = [0x41, 0x0C, 0, 0, 0x01, 0x02, 0, 0] := by decide

theorem test_decode_fmTuneStatus :
    decode Params.default [0x22, 0x01, 0, 0, 0, 0, 0, 0] = .ok (.fmTuneStatus 1) ∧
    encode Params.default (.fmTuneStatus 1) = [0x22, 0x01, 0, 0, 0, 0, 0, 0] := by decide

theorem test_decode_amTuneStatus :
    decode Params.default [0x42, 0x01, 0, 0, 0, 0, 0, 0] = .ok (.amTuneStatus 1) ∧
    encode Params.default (.amTuneStatus 1) = [0x42, 0x01, 0, 0, 0, 0, 0, 0] := by decide

theorem test_decode_fmRsqStatus :
    decode Params.default [0x23, 0x01, 0, 0, 0, 0, 0, 0] = .ok (.fmRsqStatus 1) ∧
    encode Params.default (.fmRsqStatus 1) = [0x23, 0x01, 0, 0, 0, 0, 0, 0] := by decide

theorem test_decode_amRsqStatus :
    decode Params.default [0x43, 0x01, 0, 0, 0, 0, 0, 0] = .ok (.amRsqStatus 1) ∧
    encode Params.default (.amRsqStatus 1) = [0x43, 0x01, 0, 0, 0, 0, 0, 0] := by decide

theorem test_decode_fmRdsStatus :
    decode Params.default [0x24, 0x01, 0, 0, 0, 0, 0, 0] = .ok (.fmRdsStatus 1) ∧
    encode Params.default (.fmRdsStatus 1) = [0x24, 0x01, 0, 0, 0, 0, 0, 0] := by decide

theorem test_decode_fmAgcStatus :
    decode Params.default [0x27, 0, 0, 0, 0, 0, 0, 0] = .ok (.fmAgcStatus) ∧
    encode Params.default (.fmAgcStatus) = [0x27, 0, 0, 0, 0, 0, 0, 0] := by decide

theorem test_decode_amAgcStatus :
    decode Params.default [0x47, 0, 0, 0, 0, 0, 0, 0] = .ok (.amAgcStatus) ∧
    encode Params.default (.amAgcStatus) = [0x47, 0, 0, 0, 0, 0, 0, 0] := by decide

theorem test_decode_fmAgcOverride :
    decode Params.default [0x28, 0x01, 0x05, 0, 0, 0, 0, 0] = .ok (.fmAgcOverride 0x01 0x05) ∧
    encode Params.default (.fmAgcOverride 0x01 0x05) = [0x28, 0x01, 0x05, 0, 0, 0, 0, 0] := by decide

theorem test_decode_amAgcOverride :
    decode Params.default [0x48, 0x01, 0x05, 0, 0, 0, 0, 0] = .ok (.amAgcOverride 0x01 0x05) ∧
    encode Params.default (.amAgcOverride 0x01 0x05) = [0x48, 0x01, 0x05, 0, 0, 0, 0, 0] := by decide

theorem test_decode_gpioCtl :
    decode Params.default [0x80, 0x0E, 0, 0, 0, 0, 0, 0] = .ok (.gpioCtl 0x0E) ∧
    encode Params.default (.gpioCtl 0x0E) = [0x80, 0x0E, 0, 0, 0, 0, 0, 0] := by decide

theorem test_decode_gpioSet :
    decode Params.default [0x81, 0x04, 0, 0, 0, 0, 0, 0] = .ok (.gpioSet 0x04) ∧
    encode Params.default (.gpioSet 0x04) = [0x81, 0x04, 0, 0, 0, 0, 0, 0] := by decide

theorem test_decode_fmSeekStart_arg1Only :
    decode fmArg1Only.params [0x21, 0x0C, 0, 0, 0, 0, 0, 0] = .ok (.fmSeekStart 0x0C 0) ∧
    decode fmArg1Only.params [0x21, 0x0C, 0, 0, 0x7F, 0, 0, 0] = .error .padding := by decide

/-- The three control bytes, bit by bit from R59, and the unused values around them (R70). -/
theorem test_decode_ctrl :
    decode Params.default [0b01001000] = .ok .writeTxn ∧
    decode Params.default [0b10000000] = .ok .shortReadTxn ∧
    decode Params.default [0b11000000] = .ok .longReadTxn ∧
    decode Params.default [0x00] = .error .unknownControl ∧
    decode Params.default [0x49] = .error .unknownControl := by decide

/-- Every check of the payload decoder refuses by its name. -/
theorem test_decode_refuses :
    decode Params.default [0x25, 0, 0, 0, 0, 0, 0, 0] = .error .unknownOpcode ∧
    decode Params.default [0x12, 1, 0, 0, 0, 0, 0, 0] = .error .fixedField ∧
    decode Params.default [0x40, 2, 0, 0, 0, 0, 0, 0] = .error .fixedField ∧
    decode Params.default [0x10, 0, 0, 0, 0, 0, 0, 1] = .error .padding ∧
    decode Params.default [0x10, 0] = .error .badLength ∧
    decode Params.default [] = .error .badLength := by decide

/-- No two rows of the payload table share an opcode, and the opcodes are those of R65. -/
theorem test_decode_rows_disjoint :
    ((payloadRows Params.default 0 0 0 0 0).map fun r => r.opcode).Pairwise (fun a b => a ≠ b) ∧
    ((payloadRows Params.default 0 0 0 0 0).map fun r => r.opcode).Perm opcodes := by decide

/-- The table's words: byte 0 is the word's low byte; 0xC0 alone is a control byte. -/
theorem test_decodeTableWord :
    decodeTableWord 24 0x050101 = some (.powerUp 1 5) ∧
    decodeTableWord 64 0x020000110012 = some (.setProperty 0x1100 0x0002) ∧
    decodeTableWord 8 0xC0 = some .longReadTxn ∧ decodeTableWord 8 0x02 = none := by decide


/-! ### Commands: the staging vectors (95_test_vectors.md section 2.3): payload, settle and receive shape -/

/-- G1: FM, short read. -/
theorem test_G1 : exec (.powerUp 0x10 0x05) State.reset =
      .next ((State.reset.poweredUp 0x10).exchange ⟨true, none, true, [0x01, 0x10, 0x05], 300000, .short⟩) ∧
    State.reset.poweredUp 0x10 = { State.reset with mode := .func 0x0, pwr := .up (.func 0x0) } :=
  ⟨runCommand_admitted ⟨true, none, true, [0x01, 0x10, 0x05], 300000, .short⟩ (fun t => t.poweredUp 0x10)
    State.reset rfl rfl, rfl⟩

/-- G4: QLID, long read, both operands staged whole. -/
theorem test_G4 : exec (.powerUp 0xFF 0xFF) fm =
      .next ((fm.poweredUp 0xFF).exchange ⟨true, none, true, [0x01, 0xFF, 0xFF], 300000, .long⟩) ∧
    fm.poweredUp 0xFF = { fm with mode := .func 0xF, pwr := .up (.func 0xF) } :=
  ⟨runCommand_admitted ⟨true, none, true, [0x01, 0xFF, 0xFF], 300000, .long⟩ (fun t => t.poweredUp 0xFF)
    fm rfl rfl, rfl⟩

/-- G8: PWR Down, MODE kept. -/
theorem test_G8 : exec .powerDown { fm with pwr := .up (.func 0x0) } =
      .next (State.exchange ⟨true, none, true, [0x11], 300, .short⟩
        (State.poweredDown { fm with pwr := .up (.func 0x0) })) ∧
    State.poweredDown { fm with pwr := .up (.func 0x0) } = fm :=
  ⟨runCommand_admitted ⟨true, none, true, [0x11], 300, .short⟩ State.poweredDown
    { fm with pwr := .up (.func 0x0) } rfl rfl, rfl⟩

/-- G7. -/
theorem test_G7 : Completes (.getRev) State.reset
    [0x10, 0, 0, 0, 0, 0, 0, 0] 300 .long :=
  completes_of _ _ ⟨true, none, true, [0x10], 300, .long⟩ _ _ _ rfl rfl rfl (by decide) rfl rfl rfl

/-- G9. -/
theorem test_G9 : Completes (.setProperty 0x1100 0x0002) am
    [0x12, 0, 0x11, 0x00, 0x00, 0x02, 0, 0] 10000 .short :=
  completes_of _ _ ⟨true, none, true, [0x12, 0, 0x11, 0x00, 0x00, 0x02], 10000, .short⟩ _ _ _ rfl rfl rfl (by decide) rfl rfl rfl

/-- G10. -/
theorem test_G10 : Completes (.setProperty 0xFFFF 0xFFFF) State.reset
    [0x12, 0, 0xFF, 0xFF, 0xFF, 0xFF, 0, 0] 10000 .short :=
  completes_of _ _ ⟨true, none, true, [0x12, 0, 0xFF, 0xFF, 0xFF, 0xFF], 10000, .short⟩ _ _ _ rfl rfl rfl (by decide) rfl rfl rfl

/-- G11. -/
theorem test_G11 : Completes (.getProperty 0x1100) State.reset
    [0x13, 0, 0x11, 0, 0, 0, 0, 0] 300 .short :=
  completes_of _ _ ⟨true, none, true, [0x13, 0, 0x11, 0], 300, .short⟩ _ _ _ rfl rfl rfl (by decide) rfl rfl rfl

/-- G12. -/
theorem test_G12 : Completes (.getIntStatus) State.reset
    [0x14, 0, 0, 0, 0, 0, 0, 0] 300 .short :=
  completes_of _ _ ⟨true, none, true, [0x14], 300, .short⟩ _ _ _ rfl rfl rfl (by decide) rfl rfl rfl

/-- G14. -/
theorem test_G14 : Completes (.fmTuneFreq 0xFF 0xFFFF 0x00FF) fm
    [0x20, 0xFF, 0xFF, 0xFF, 0xFF, 0, 0, 0] 120000 .short :=
  completes_of _ _ ⟨true, some .fm, true, [0x20, 0xFF, 0xFF, 0xFF, 0xFF], 120000, .short⟩ _ _ _ rfl rfl rfl (by decide) rfl rfl rfl

/-- G31. -/
theorem test_G31 : Completes (.fmTuneFreq 0x00 0x2706 0x01AB) fmTruncate
    [0x20, 0, 0x27, 0x06, 0xAB, 0, 0, 0] 120000 .short :=
  completes_of _ _ ⟨true, some .fm, true, [0x20, 0, 0x27, 0x06, 0xAB], 120000, .short⟩ _ _ _ rfl rfl rfl (by decide) rfl rfl rfl

/-- G15. -/
theorem test_G15 : Completes (.amTuneFreq 0x03 0x03E8 0x0123) am
    [0x40, 0x01, 0x03, 0xE8, 0x01, 0x23, 0, 0] 200000 .short :=
  completes_of _ _ ⟨true, some .am, true, [0x40, 0x01, 0x03, 0xE8, 0x01, 0x23], 200000, .short⟩ _ _ _ rfl rfl rfl (by decide) rfl rfl rfl

/-- G16. -/
theorem test_G16 : Completes (.amTuneFreq 0xFE 0x03E8 0xFFFF) am
    [0x40, 0, 0x03, 0xE8, 0xFF, 0xFF, 0, 0] 200000 .short :=
  completes_of _ _ ⟨true, some .am, true, [0x40, 0, 0x03, 0xE8, 0xFF, 0xFF], 200000, .short⟩ _ _ _ rfl rfl rfl (by decide) rfl rfl rfl

/-- G17. -/
theorem test_G17 : Completes (.fmSeekStart 0x0C 0x0000) fm
    [0x21, 0x0C, 0, 0, 0, 0, 0, 0] 300 .short :=
  completes_of _ _ ⟨true, some .fm, true, [0x21, 0x0C, 0, 0, 0], 300, .short⟩ _ _ _ rfl rfl rfl (by decide) rfl rfl rfl

/-- G18. -/
theorem test_G18 : Completes (.fmSeekStart 0x0C 0x1234) fmArg1Only
    [0x21, 0x0C, 0, 0, 0, 0, 0, 0] 300 .short :=
  completes_of _ _ ⟨true, some .fm, true, [0x21, 0x0C], 300, .short⟩ _ _ _ rfl rfl rfl (by decide) rfl rfl rfl

/-- G19. -/
theorem test_G19 : Completes (.amSeekStart 0x0C 0x0100) am
    [0x41, 0x0C, 0, 0, 0x01, 0, 0, 0] 300 .short :=
  completes_of _ _ ⟨true, some .am, true, [0x41, 0x0C, 0, 0, 0x01, 0], 300, .short⟩ _ _ _ rfl rfl rfl (by decide) rfl rfl rfl

/-- G20. -/
theorem test_G20 : Completes (.fmTuneStatus 0x01) fm
    [0x22, 0x01, 0, 0, 0, 0, 0, 0] 300 .long :=
  completes_of _ _ ⟨true, some .fm, true, [0x22, 0x01], 300, .long⟩ _ _ _ rfl rfl rfl (by decide) rfl rfl rfl

/-- G21. -/
theorem test_G21 : Completes (.amTuneStatus 0x01) am
    [0x42, 0x01, 0, 0, 0, 0, 0, 0] 300 .long :=
  completes_of _ _ ⟨true, some .am, true, [0x42, 0x01], 300, .long⟩ _ _ _ rfl rfl rfl (by decide) rfl rfl rfl

/-- G22, with a dirty buffer. -/
theorem test_G22 : Completes (.fmRsqStatus 0x00) (viewing (.func 0x0) (List.replicate 16 0xAA))
    [0x23, 0, 0, 0, 0, 0, 0, 0] 300 .long :=
  completes_of _ _ ⟨true, some .fm, true, [0x23, 0], 300, .long⟩ _ _ _ rfl rfl rfl (by decide) rfl rfl rfl

/-- G23. -/
theorem test_G23 : Completes (.amRsqStatus 0x01) am
    [0x43, 0x01, 0, 0, 0, 0, 0, 0] 300 .long :=
  completes_of _ _ ⟨true, some .am, true, [0x43, 0x01], 300, .long⟩ _ _ _ rfl rfl rfl (by decide) rfl rfl rfl

/-- G24, in AM. -/
theorem test_G24 : Completes (.fmRdsStatus 0x01) am
    [0x24, 0x01, 0, 0, 0, 0, 0, 0] 300 .long :=
  completes_of _ _ ⟨true, none, true, [0x24, 0x01], 300, .long⟩ _ _ _ rfl rfl rfl (by decide) rfl rfl rfl

/-- G25. -/
theorem test_G25 : Completes (.fmAgcStatus) fm
    [0x27, 0, 0, 0, 0, 0, 0, 0] 300 .long :=
  completes_of _ _ ⟨true, some .fm, true, [0x27], 300, .long⟩ _ _ _ rfl rfl rfl (by decide) rfl rfl rfl

/-- G26. -/
theorem test_G26 : Completes (.amAgcStatus) am
    [0x47, 0, 0, 0, 0, 0, 0, 0] 300 .long :=
  completes_of _ _ ⟨true, some .am, true, [0x47], 300, .long⟩ _ _ _ rfl rfl rfl (by decide) rfl rfl rfl

/-- G27. -/
theorem test_G27 : Completes (.fmAgcOverride 0x01 0x05) fm
    [0x28, 0x01, 0x05, 0, 0, 0, 0, 0] 300 .short :=
  completes_of _ _ ⟨true, some .fm, true, [0x28, 0x01, 0x05], 300, .short⟩ _ _ _ rfl rfl rfl (by decide) rfl rfl rfl

/-- G28. -/
theorem test_G28 : Completes (.amAgcOverride 0x00 0x00) am
    [0x48, 0, 0, 0, 0, 0, 0, 0] 300 .short :=
  completes_of _ _ ⟨true, some .am, true, [0x48, 0, 0], 300, .short⟩ _ _ _ rfl rfl rfl (by decide) rfl rfl rfl

/-- G29. -/
theorem test_G29 : Completes (.gpioCtl 0x0E) State.reset
    [0x80, 0x0E, 0, 0, 0, 0, 0, 0] 300 .short :=
  completes_of _ _ ⟨true, none, true, [0x80, 0x0E], 300, .short⟩ _ _ _ rfl rfl rfl (by decide) rfl rfl rfl

/-- G30. -/
theorem test_G30 : Completes (.gpioSet 0x04) qlid
    [0x81, 0x04, 0, 0, 0, 0, 0, 0] 300 .short :=
  completes_of _ _ ⟨true, none, true, [0x81, 0x04], 300, .short⟩ _ _ _ rfl rfl rfl (by decide) rfl rfl rfl

/-- R-2: the whole wire of one command evaluated event by event: 0x48, the payload, the read's 0x80. -/
theorem test_R2 :
    bytesOf (wireBits Lines.reset (after (exec .getIntStatus State.reset)).trace) =
      [0x48, 0x14, 0, 0, 0, 0, 0, 0, 0, 0x80] := by decide +kernel

/-- R-2: its event 220 is the settle; 272 events in all. -/
theorem test_R2_settle :
    ((after (exec .getIntStatus State.reset)).trace.drop 219).head? = some (.settle 300) ∧
    (after (exec .getIntStatus State.reset)).trace.length = 272 := by decide +kernel

/-! ### Transport and framer vectors (sections 2.1 and 2.2) -/

/-- T6: 0xA5 goes out as 1 0 1 0 0 1 0 1. -/
theorem test_T6 :
    (after (exec (.sendByte 0xA5) State.reset)).trace =
      [true, false, true, false, false, true, false, true].flatMap fun b =>
        [.dout b, .clk true, .clk false] := by decide +kernel

/-- T7: the only 1 of 0x01 is on the eighth pulse; DOUT 1, SR 0 after. -/
theorem test_T7 :
    (after (exec (.sendByte 0x01) State.reset)).lines.dout = true ∧
    (after (exec (.sendByte 0x01) State.reset)).sr = 0x00 ∧
    ((after (exec (.sendByte 0x01) State.reset)).trace.drop 21) =
      [.dout true, .clk true, .clk false] := by decide +kernel

/-- T8, T11: DIR(in) whatever the direction before, then eight CLK(1) SAMPLE CLK(0). -/
theorem test_T8 :
    shape (after (exec .recvByte State.reset)).trace =
      some (.dir .input) :: (List.range 8).flatMap fun _ => [some (.clk true), none, some (.clk false)] := by
  decide +kernel

/-- T9: the first draw is bit 7 of the byte returned. -/
theorem test_T9 (s : State) :
    s.recvByte.sr.getLsbD 7 = Config.deviceBit s.draws ∧
    s.recvByte.sr.getLsbD 0 = Config.deviceBit (s.draws + 7) := by
  rw [State.recvByte_eq]
  simp only [deviceByte]
  refine ⟨?_, ?_⟩
  · simp only [append_ofBool_getLsbD, show (7 : Nat) ≠ 0 by decide, show (7 - 1 : Nat) = 6 from rfl]
    simp
  · simp only [append_ofBool_getLsbD, if_true]

/-- T12: of the eight DOUT(0) and eight DOUT(1) of 0x00 then 0xFF only the first DOUT(1) is an edge. -/
theorem test_T12 :
    (waveform { en := .asserted, clk := false, ddir := .output, dout := false }
      (sendEvents 0x00 ++ sendEvents 0xFF)).length = 32 + 1 := by decide +kernel

/-- F2: the wire carries the payload, DDIR is out and BUF as before. -/
theorem test_F2 :
    bytesOf (wireBits Lines.reset
      (after (exec .writeTxn (viewing .poweredDown [0x12, 0, 0x11, 0, 0, 0x02, 0, 0]))).trace) =
        [0x48, 0x12, 0, 0x11, 0, 0, 0x02, 0, 0] ∧
    (after (exec .writeTxn (viewing .poweredDown [0x12, 0, 0x11, 0, 0, 0x02, 0, 0]))).buf =
      bufOf [0x12, 0, 0x11, 0, 0, 0x02, 0, 0] := by decide +kernel

/-- F3: DOUT stays at bit 0 of BUF[7] after the write. -/
theorem test_F3 :
    (after (exec .writeTxn (viewing .poweredDown (List.replicate 8 0xFF)))).lines =
      { en := .released, clk := false, ddir := .output, dout := true } := by decide +kernel

/-- F1: the events of a short read, the sampled bits left out. -/
theorem test_F1 :
    shape (after (exec .shortReadTxn State.reset)).trace =
      List.flatten
        [[some (Event.dir .output), some (Event.en .asserted)],
          [true, false, false, false, false, false, false, false].flatMap fun b =>
            [some (Event.dout b), some (Event.clk true), some (Event.clk false)],
          [some (Event.dir .input)],
          (List.range 8).flatMap fun _ => [some (Event.clk true), none, some (Event.clk false)],
          [some (Event.en .released)]] := by decide +kernel

/-- F4: only byte 0 changes. -/
theorem test_F4 (k : Offset) (h : k ≠ 0) :
    (viewing .poweredDown [0x12, 0, 0x11, 0, 0, 0x02, 0, 0, 0x5A]).shortReadTxn.readBuf k =
      (viewing .poweredDown [0x12, 0, 0x11, 0, 0, 0x02, 0, 0, 0x5A]).readBuf k := by
  rw [State.shortReadTxn_eq]
  exact Memory.read_write_other _ _ _ _ h

/-- F5: 427 events with sixteen DIR(in); BYTE_IDX 15 after. -/
theorem test_F5 :
    (after (exec .longReadTxn State.reset)).trace.length = 427 ∧
    ((after (exec .longReadTxn State.reset)).trace.count (.dir .input)) = 16 ∧
    (after (exec .longReadTxn State.reset)).byteIdx = 15 := by decide +kernel

/-! ### Admission, faults and refusals (section 2.4) -/

theorem test_A1_A2_A3 :
    faultOf (step (asking State.reset (.call "TUNE_FREQ" [0x00, 0x2706, 0x0000]))) = some 0b01 ∧
    faultOf (step (asking State.reset (.call "TUNE_FREQ" [0x100, 0x2706, 0x0000]))) = some 0b10 ∧
    faultOf (step (asking State.reset (.call "TUNE_FREQ" [0x00, 0x10000, 0x0000]))) = some 0b10 := by
  decide +kernel

theorem test_A4_A22 :
    faultOf (step (asking fm (.call "FROB" [0x01]))) = some 0b10 ∧
    faultOf (step (asking State.reset (.call "FROB" [0x100]))) = some 0b10 := by decide +kernel

theorem test_A5_A6 :
    faultOf (step (asking fm (.call "AM_TUNE_FREQ" [0x00, 0x03E8, 0x0000]))) = some 0b10 ∧
    faultOf (step (asking State.reset (.call "FM_TUNE_FREQ" [0x00, 0x2706, 0x0000]))) = some 0b01 := by
  decide +kernel

theorem test_A7_A9 :
    faultOf (step (asking fm (.call "TUNE_FREQ" [0x00, 0x2706, 0x0100]))) = some 0b10 ∧
    faultOf (step (asking fm (.call "SEEK_START" [0x0C, 0x0100]))) = some 0b10 := by decide +kernel

theorem test_A10_to_A14 :
    faultOf (step (asking qlid (.call "TUNE_STATUS" [0x01]))) = some 0b01 ∧
    faultOf (step (asking other (.call "AGC_STATUS" []))) = some 0b01 ∧
    faultOf (step (asking other (.call "AGC_OVERRIDE" [0x00, 0x00]))) = some 0b01 ∧
    faultOf (step (asking State.reset (.call "SEEK_START" [0x0C, 0x0000]))) = some 0b01 ∧
    faultOf (step (asking State.reset (.call "RSQ_STATUS" [0x00]))) = some 0b01 := by decide +kernel

/-- A17 changes nothing but FAULT. -/
theorem test_A17 : exec (.powerUp 0x100 0x05) State.reset = .next { State.reset with fault := 0b10 } := rfl

/-- A18: a second Power Up needs no Power Down. -/
theorem test_A18 : State.poweredUp 0x11 { fm with pwr := .up (.func 0x0) } =
      { fm with mode := .func 0x1, pwr := .up (.func 0x1) } ∧
    ∃ t, exec (.powerUp 0x11 0x05) { fm with pwr := .up (.func 0x0) } = .next t :=
  ⟨rfl, _, runCommand_admitted ⟨true, none, true, [0x01, 0x11, 0x05], 300000, .short⟩
    (fun t => t.poweredUp 0x11) { fm with pwr := .up (.func 0x0) } rfl rfl⟩

/-- A19: `antcap` while powered down. A20, A21: a stuck block takes no step. -/
theorem test_A19_A20_A21 :
    faultOf (exec .antcap State.reset) = some 0b01 ∧ isStuck (exec .getIntStatus (stuck 0b01)) = true ∧
    isStuck (step (asking (stuck 0b10) (.call "rssi" []))) = true := by decide +kernel

/-! ### The response view (section 2.5) -/

/-- V1: the source's own decode example. -/
theorem test_V1 :
    [Instr.statusByte, .cts, .err, .rsqInt, .rdsInt, .stcInt, .frequency, .rssi, .snr, .antcap, .fmStereo,
      .stereoBlend, .freqOffset].map
      (fun i => value (exec i (viewing (.func 0x0) [0x80, 0x00, 0x09, 0x80, 0x40, 0x1E, 0x00, 0xFE]))) =
    [some (.u8 0x80), some (.flag true), some (.flag false), some (.flag false), some (.flag false),
      some (.flag false), some (.u16 0x0980), some (.u8 0x40), some (.u8 0x1E), some (.u16 0x00FE),
      some (.flag true), some (.u7 0), some (.s16 (-2))] := by decide +kernel

/-- V2 in AM, V3 in FM: the width of `antcap` follows MODE. -/
theorem test_V2_V3 :
    [Instr.statusByte, .stcInt, .frequency, .rssi, .snr, .antcap, .freqOffset, .fmStereo, .stereoBlend].map
      (fun i => value (exec i (viewing (.func 0x1) [0x81, 0x00, 0x03, 0xE8, 0x2A, 0x0C, 0x01, 0x23]))) =
    [some (.u8 0x81), some (.flag true), some (.u16 1000), some (.u8 0x2A), some (.u8 0x0C),
      some (.u16 0x0123), some (.s16 35), some (.flag true), some (.u7 104)] ∧
    value (exec .antcap (viewing (.func 0x0) [0x81, 0x00, 0x03, 0xE8, 0x2A, 0x0C, 0x01, 0x23])) =
      some (.u16 0x0023) := by decide +kernel

/-- V4, V5: the split of byte 3. -/
theorem test_V4_V5 :
    [Instr.fmStereo, .stereoBlend].map (fun i => value (exec i (viewing .poweredDown [0, 0, 0, 0xFF]))) =
      [some (.flag true), some (.u7 127)] ∧
    [Instr.fmStereo, .stereoBlend].map (fun i => value (exec i (viewing .poweredDown [0, 0, 0, 0x7F]))) =
      [some (.flag false), some (.u7 127)] := by decide +kernel

/-- V7, V8: the ends of the signed range. -/
theorem test_V7_V8 :
    value (exec .freqOffset (viewing .poweredDown [0, 0, 0, 0, 0, 0, 0, 0x80])) = some (.s16 (-128)) ∧
    value (exec .freqOffset (viewing .poweredDown [0, 0, 0, 0, 0, 0, 0, 0x7F])) = some (.s16 127) := by
  decide +kernel

/-- V10 and V11: each status bit on and off. -/
theorem test_V10_V11 :
    [Instr.cts, .err, .rsqInt, .rdsInt, .stcInt].map (fun i => value (exec i (viewing other.mode [0xC9]))) =
      [some (.flag true), some (.flag true), some (.flag true), some (.flag false), some (.flag true)] ∧
    [Instr.cts, .err, .rsqInt, .rdsInt, .stcInt].map (fun i => value (exec i (viewing other.mode [0x36]))) =
      [some (.flag false), some (.flag false), some (.flag false), some (.flag true), some (.flag false)] := by
  decide +kernel

/-! ### Reset, requests and time (section 2.6) -/

/-- R-3: a reset leaves the faulted state. -/
theorem test_R3 : faultOf (step (asking (stuck 0b10) .reset)) = some 0 ∧
    (after (step (asking (stuck 0b10) .reset))).mode = .poweredDown := by decide +kernel

/-- R-5: with every bound 1 us, 561 us for GET_INT_STATUS and 300501 us for POWER_UP 0x0F. -/
theorem test_R5 :
    minCommandTime ⟨1000, 1000, 1000, 1000, 1000, 1000⟩ .short 300 = 561000 ∧
    minCommandTime ⟨1000, 1000, 1000, 1000, 1000, 1000⟩ .long 300000 = 300501000 := by decide

/-- A line of program text reads as its mnemonic and operands; other text names nothing (R73). -/
theorem test_readLine :
    readLine "TUNE_FREQ 0x00, 0x2706, 0x0023" = some ("TUNE_FREQ", [0, 0x2706, 0x23]) ∧
    readLine "  SET_PROPERTY 4352 ,2 " = some ("SET_PROPERTY", [4352, 2]) ∧
    readLine "GET_REV" = some ("GET_REV", []) ∧ readLine "GPIO_CTL 0xG" = none ∧
    readLine "POWER_UP 1,,2" = none := by decide +kernel

/-- A line of text in AM names the AM variant (program P7); no request names a transaction, its control
byte included (R57, R70). -/
theorem test_requested :
    requested am (.line "AGC_OVERRIDE 0x00, 0x00") = some (.amAgcOverride 0 0) ∧
    requested fm (.call "AGC_OVERRIDE" [1, 5]) = some (.fmAgcOverride 1 5) ∧
    requested fm (.call "WRITE_TXN" []) = none ∧ requested fm (.call "GET_REV" [1]) = none ∧
    requested fm (.encoded [0x48]) = none ∧ requested fm (.encoded [0x10, 0, 0, 0, 0, 0, 0, 0]) = some .getRev := by
  decide +kernel

/-- A control byte asked for alone is refused, and nothing is emitted (R57, R70). -/
theorem test_control_byte_refused :
    [0x48, 0x80, 0xC0].map (fun c => faultOf (step (asking State.reset (.encoded [c])))) =
      [some 0b10, some 0b10, some 0b10] ∧
    (after (step (asking State.reset (.encoded [0x48])))).trace = [] := by decide +kernel

/-- The numbers of operands cover the 40 spellings, each once. -/
theorem test_arities : (arities.map fun e => e.1).Perm spellings ∧ spellings.Nodup := by decide +kernel

/-- The table's word runs as the first instruction after reset. -/
theorem test_withFetchWord :
    step (State.reset.withFetchWord 24 0x050001) = exec (.powerUp 0 5) State.reset := rfl

/-! ### Witnesses: for every statement with hypotheses, states and operands that meet them -/

theorem inFm : InFm fm := rfl

theorem inAm : InAm am := ⟨rfl, rfl⟩

theorem inNeither_down : InNeither State.reset := ⟨by decide, by decide⟩

theorem inNeither_qlid : InNeither qlid := ⟨by decide, by decide⟩

theorem witness_SendByteEmitsItsBitsFromBitSeven :
    State.reset.fault = 0 := rfl

theorem witness_RecvByteAssemblesEightSamples :
    State.reset.fault = 0 := rfl

theorem witness_WriteTxnSendsTheEightPayloadBytes :
    State.reset.fault = 0 := rfl

theorem witness_ShortReadTxnRefreshesBufZeroAlone :
    State.reset.fault = 0 := rfl

theorem witness_LongReadTxnRefreshesAllSixteenBytes :
    State.reset.fault = 0 := rfl

theorem witness_WireFramesCarryTheirPulses :
    State.reset.fault = 0 := rfl

theorem witness_StageZeroesThePayloadBeyondItsBytes :
    1 ≤ ([0x10] : List Byte).length ∧ ([0x10] : List Byte).length ≤ 8 ∧
    1 ≤ (List.replicate 8 (0xFF : Byte)).length ∧ (List.replicate 8 (0xFF : Byte)).length ≤ 8 ∧
    ((0 : Offset).val < 1 ∧ (7 : Offset).val < 8) ∧ (1 ≤ (1 : Offset).val ∧ (7 : Offset).val < 8) ∧
    8 ≤ (8 : Offset).val ∧ 8 ≤ (15 : Offset).val := by decide

theorem witness_PowerUpRecordsTheLowNibbleAndReadsByIt :
    State.reset.fault = 0 ∧ 255 < 256 ∧ 255 % 16 = 15 ∧ 254 < 256 ∧ 254 % 16 ≠ 15 := by decide

theorem witness_PowerDownClearsThePowerRecordAlone :
    State.reset.fault = 0 ∧ fm.fault = 0 ∧ am.fault = 0 ∧ qlid.fault = 0 := by decide

theorem witness_GetRevReadsALongResponse :
    State.reset.fault = 0 ∧ fm.fault = 0 ∧ am.fault = 0 ∧ qlid.fault = 0 := by decide

theorem witness_GetIntStatusRefreshesTheStatusByte :
    State.reset.fault = 0 ∧ fm.fault = 0 ∧ am.fault = 0 ∧ qlid.fault = 0 := by decide

theorem witness_SetPropertySendsBothWordsBigEndian :
    State.reset.fault = 0 ∧ 65535 < 65536 ∧ 0 < 65536 := by decide

theorem witness_GetPropertySendsTheIdBigEndian :
    State.reset.fault = 0 ∧ 65535 < 65536 := by decide

theorem witness_FmTuneFreqSendsOneAntcapByte :
    fm.fault = 0 ∧ InFm fm ∧ 255 < 256 ∧ 65535 < 65536 ∧ 255 ≤ 255 ∧
    fmTruncate.fault = 0 ∧ InFm fmTruncate ∧ fmTruncate.params.fmAntcapPolicy = .truncate := ⟨rfl, rfl, by decide, by decide, by decide, rfl, rfl, rfl⟩

theorem witness_AmTuneFreqMasksSetupAndSendsTwoAntcapBytes :
    am.fault = 0 ∧ InAm am ∧ 255 < 256 ∧ 65535 < 65536 := ⟨rfl, inAm, by decide, by decide⟩

theorem witness_FmSeekStartFollowsItsLayout :
    fm.fault = 0 ∧ InFm fm ∧ 255 < 256 ∧ fm.params.seekFmLayout = .antcap ∧ 255 ≤ 255 ∧
    fmArg1Only.fault = 0 ∧ InFm fmArg1Only ∧ fmArg1Only.params.seekFmLayout = .arg1Only ∧ 65535 < 65536 ∧
    fmTruncate.params.seekFmLayout = .antcap ∧ fmTruncate.params.fmAntcapPolicy = .truncate := ⟨rfl, rfl, by decide, rfl, by decide, rfl, rfl, rfl, by decide, rfl, rfl⟩

theorem witness_AmSeekStartSendsTwoAntcapBytes :
    am.fault = 0 ∧ InAm am ∧ 255 < 256 ∧ 65535 < 65536 := ⟨rfl, inAm, by decide, by decide⟩

theorem witness_TuneAndRsqStatusReadALongResponse :
    fm.fault = 0 ∧ InFm fm ∧ am.fault = 0 ∧ InAm am ∧ 255 < 256 := ⟨rfl, rfl, rfl, inAm, by decide⟩

theorem witness_FmRdsStatusRunsInEveryMode :
    State.reset.fault = 0 ∧ am.fault = 0 ∧ 255 < 256 := by decide

theorem witness_AgcStatusReadsALongResponse :
    fm.fault = 0 ∧ InFm fm ∧ am.fault = 0 ∧ InAm am := ⟨rfl, rfl, rfl, inAm⟩

theorem witness_AgcOverrideSendsBothArguments :
    fm.fault = 0 ∧ InFm fm ∧ am.fault = 0 ∧ InAm am ∧ 255 < 256 := ⟨rfl, rfl, rfl, inAm, by decide⟩

theorem witness_GpioCommandsRunInEveryMode :
    State.reset.fault = 0 ∧ qlid.fault = 0 ∧ 255 < 256 := by decide

theorem witness_ByteAccessorsReturnTheirBytes :
    (viewing (.func 0x0) (List.replicate 16 0xFF)).fault = 0 := rfl

theorem witness_FlagAccessorsReturnStatusBits :
    (viewing (.func 0x0) (List.replicate 16 0xFF)).fault = 0 := rfl

theorem witness_StereoAccessorsSplitByteThree :
    (viewing (.func 0x0) (List.replicate 16 0xFF)).fault = 0 := rfl

theorem witness_FreqOffsetIsTheSignedByteSeven :
    (viewing (.func 0x0) (List.replicate 16 0xFF)).fault = 0 := rfl

/-- The state after GET_INT_STATUS, whose run is short. -/
theorem witness_FrequencyReadsBytesTwoAndThreeBigEndian :
    State.reset.fault = 0 ∧ ∃ t, Ran State.reset t [0x14, 0, 0, 0, 0, 0, 0, 0] 300 .short :=
  ⟨rfl, _, State.exchange_ran ⟨true, none, true, [0x14], 300, .short⟩ State.reset (by decide)⟩

theorem witness_AntcapWidthFollowsMode :
    fm.fault = 0 ∧ InFm fm ∧ am.fault = 0 ∧ InAm am ∧ qlid.fault = 0 ∧ InNeither qlid := ⟨rfl, rfl, rfl, inAm, rfl, inNeither_qlid⟩

/-- For antcap two blocks that differ in TRACE and PWR; for rssi two that differ in MODE too. -/
theorem witness_AccessorsReadOnlyBufAndMode :
    (isAccessor .antcap = true ∧ fm.fault = 0 ∧ fm.mode = ({ fm with trace := [.settle 1] } : State).mode ∧
      fm.params = ({ fm with trace := [.settle 1] } : State).params ∧
      (∀ k : Offset, fm.readBuf k = ({ fm with trace := [.settle 1] } : State).readBuf k)) ∧
    (isAccessor .rssi = true ∧ Instr.rssi ≠ .antcap ∧ am.fault = 0 ∧ fm.mode ≠ am.mode ∧
      ∀ k : Offset, fm.readBuf k = am.readBuf k) := by
  refine ⟨⟨by decide, rfl, rfl, rfl, fun _ => rfl⟩, by decide, by decide, rfl, by decide, fun _ => rfl⟩

theorem witness_ModeDependentCommandsFaultOutsideFmAndAm :
    State.reset.fault = 0 ∧ InNeither State.reset ∧ InNeither qlid ∧
    (neededBand (.fmTuneFreq 255 65535 65535)).isSome = true ∧
    (Instr.fmTuneFreq 255 65535 65535).wellFormed = true := ⟨rfl, inNeither_down, inNeither_qlid, by decide, by decide⟩

theorem witness_OperandsTooWideAreRefusedFirst :
    State.reset.fault = 0 ∧ (Instr.fmTuneFreq 256 0 0).wellFormed = false ∧
    (Instr.setProperty 0 65536).wellFormed = false := by decide

theorem witness_VariantsAgainstModeAreRefused :
    am.fault = 0 ∧ fm.fault = 0 ∧ (Instr.fmAgcStatus).wellFormed = true ∧ neededBand .fmAgcStatus = some .fm ∧
    InAm am ∧ (Instr.amAgcStatus).wellFormed = true ∧ neededBand .amAgcStatus = some .am ∧ InFm fm ∧
    fm.params.wf = true := ⟨rfl, rfl, rfl, rfl, inAm, rfl, rfl, rfl, rfl⟩

theorem witness_FmAntcapAboveOneByteIsRefused :
    fm.fault = 0 ∧ InFm fm ∧ 255 < 256 ∧ 65535 < 65536 ∧ fm.params.fmAntcapPolicy = .refuse ∧
    fm.params.seekFmLayout = .antcap := ⟨rfl, rfl, by decide, by decide, rfl, rfl⟩

theorem witness_FaultedBlocksTakeNoStep :
    (stuck 0b01).fault ≠ 0 ∧ (stuck 0b10).fault ≠ 0 ∧ (stuck 0b10).calls.head? ≠ some .reset := by decide

/-- `antcap` while powered down is such a run. -/
theorem witness_FaultsArePrecise :
    exec .antcap State.reset = .next { State.reset with fault := 1 } ∧
    ({ State.reset with fault := 1 } : State).fault ≠ 0 := ⟨rfl, by decide⟩

theorem witness_ResetStartsANewRun :
    (asking (stuck 0b10) .reset).calls = .reset :: [] := rfl

theorem witness_StepRunsTheDecodedInstruction :
    (asking State.reset (.encoded [0x10, 0, 0, 0, 0, 0, 0, 0])).calls =
      .encoded [0x10, 0, 0, 0, 0, 0, 0, 0] :: [] ∧
    decode State.reset.params [0x10, 0, 0, 0, 0, 0, 0, 0] = .ok .getRev ∧ Instr.getRev.isCommand = true ∧
    State.reset.calls = [] ∧ State.reset.fault = 0 := ⟨rfl, rfl, rfl, rfl, rfl⟩

theorem witness_StepRunsTheCalledInstruction :
    instrOfCall am.params am.mode "TUNE_STATUS" [1] = some (.amTuneStatus 1) ∧
    readLine "TUNE_STATUS 1" = some ("TUNE_STATUS", [1]) ∧
    ("POWER_UP", [255, 0], Instr.powerUp 255 0) ∈ plainCalls 255 0 0 ∧
    ("FM_TUNE_FREQ", [1, 2, 3], Instr.fmTuneFreq 1 2 3) ∈ plainCalls 1 2 3 ∧
    ("freqOffset", [], Instr.freqOffset) ∈ plainCalls 0 0 0 ∧
    (asking qlid (.call "POWER_UP" [255, 0])).calls = .call "POWER_UP" [255, 0] :: [] ∧
    readLine "POWER_UP 0xFF, 0" = some ("POWER_UP", [255, 0]) := by decide +kernel

/-- Each of the six calls in each of the three kinds of MODE, by a call and by a line; and the operands of
vector A2's kind, which do not fit. -/
theorem witness_CallerMnemonicsResolveByMode :
    (asking fm (.call "TUNE_FREQ" [255, 65535, 65535])).calls = .call "TUNE_FREQ" [255, 65535, 65535] :: [] ∧
    ("TUNE_FREQ", [255, 65535, 65535], Instr.fmTuneFreq 255 65535 65535, Instr.amTuneFreq 255 65535 65535) ∈
      bandCalls 255 65535 65535 ∧
    readLine "AGC_OVERRIDE 256, 0" = some ("AGC_OVERRIDE", [256, 0]) ∧
    InFm fm ∧ InAm am ∧ InNeither State.reset ∧ State.reset.fault = 0 ∧ fm.fault = 0 ∧
    ((bandCalls 255 255 255).all fun e => e.2.2.1.wellFormed) = true ∧
    ((bandCalls 256 65536 65536).map fun e => e.2.2.1.wellFormed) = [false, false, false, false, true, false] :=
  ⟨rfl, by decide, by decide +kernel, rfl, inAm, inNeither_down, rfl, rfl, by decide, by decide⟩

/-- One request for each clause. -/
theorem witness_RequestsThatNameNothingAreRefused :
    State.reset.fault = 0 ∧ "WRITE_TXN" ∉ spellings ∧ "frob" ∉ spellings ∧
    (("GET_REV", 0) ∈ arities ∧ [1].length ≠ 0) ∧ (("TUNE_FREQ", 3) ∈ arities ∧ [1, 2].length ≠ 3) ∧
    readLine "GPIO_CTL 0xG" = none ∧ readLine "frob 1" = some ("frob", [1]) ∧
    readLine "GET_REV 1" = some ("GET_REV", [1]) ∧
    decode State.reset.params [0x49] = .error .unknownControl ∧
    decode State.reset.params [0xC0] = .ok .longReadTxn ∧ Instr.longReadTxn.isCommand = false := by
  decide +kernel

theorem witness_DecodeOfEncodeIsTheInstructionOnTheWire :
    (Instr.amTuneFreq 255 65535 65535).wellFormed = true ∧ (Instr.amTuneFreq 255 65535 65535).hasEncoding = true ∧
    Instr.longReadTxn.wellFormed = true ∧ Instr.longReadTxn.hasEncoding = true := by decide

theorem witness_EncodeOfDecodeIsTheBytes :
    decode Params.default [0x28, 0xFF, 0xFF, 0, 0, 0, 0, 0] = .ok (.fmAgcOverride 255 255) ∧
    decode Params.default [0x48] = .ok .writeTxn := by decide

theorem witness_OtherOpcodesAreRejected :
    (0x25 : Byte) ∉ opcodes ∧ ([0, 0, 0, 0, 0, 0, 0] : List Byte).length = 7 ∧
    ([] : List Byte).length ≠ 1 ∧ ([] : List Byte).length ≠ 8 := by decide

/-- A short and a long command that pass admission. -/
theorem witness_commands_pass :
    (Instr.getIntStatus.isCommand = true ∧
      ∃ t, exec .getIntStatus State.reset = .next t ∧ t.fault = 0) ∧
    (Instr.getRev.isCommand = true ∧ ∃ t, exec .getRev State.reset = .next t ∧ t.fault = 0) := by
  refine ⟨⟨rfl, _, runCommand_admitted ⟨true, none, true, [0x14], settleBase, .short⟩ id State.reset rfl rfl, ?_⟩,
    ⟨rfl, _, runCommand_admitted ⟨true, none, true, [0x10], settleBase, .long⟩ id State.reset rfl rfl, ?_⟩⟩
  · rw [State.exchange_eq _ _ (by decide)]; rfl
  · rw [State.exchange_eq _ _ (by decide)]; rfl

theorem witness_CommandsEmitOneOfTwoTraceLengths :
    Instr.getIntStatus.isCommand = true ∧ ∃ t, exec .getIntStatus State.reset = .next t ∧ t.fault = 0 :=
  witness_commands_pass.1

theorem witness_CommandTimeHasItsLowerBound :
    Instr.getIntStatus.isCommand = true ∧ ∃ t, exec .getIntStatus State.reset = .next t ∧ t.fault = 0 :=
  witness_commands_pass.1

/-- A call of GET_INT_STATUS right after reset is a step. -/
theorem step_of_call :
    ∃ t, step (asking State.reset (.call "GET_INT_STATUS" [])) = .next t := by
  rw [show step (asking State.reset (.call "GET_INT_STATUS" [])) = exec .getIntStatus State.reset from rfl]
  exact ⟨_, runCommand_admitted ⟨true, none, true, [0x14], settleBase, .short⟩ id State.reset rfl rfl⟩

theorem witness_TheWireCarriesTheEncodedCommand :
    (Instr.getRev.isCommand = true ∧ ∃ t, exec .getRev State.reset = .next t ∧ t.fault = 0) ∧
    (∃ t, step (asking State.reset (.call "GET_INT_STATUS" [])) = .next t) ∧
    (asking State.reset (.call "GET_INT_STATUS" [])).calls.head? ≠ some .reset :=
  ⟨witness_commands_pass.2, step_of_call, by decide⟩

theorem witness_StepKeepsBufCanonical :
    BufCanonical (asking State.reset (.call "GET_INT_STATUS" [])) ∧
    ∃ t, step (asking State.reset (.call "GET_INT_STATUS" [])) = .next t := ⟨rfl, step_of_call⟩

theorem witness_StepKeepsTheBusAtRest :
    AtRest (asking State.reset (.call "GET_INT_STATUS" [])) ∧
    ∃ t, step (asking State.reset (.call "GET_INT_STATUS" [])) = .next t :=
  ⟨⟨rfl, rfl, rfl, rfl⟩, step_of_call⟩

theorem witness_StepKeepsTheLineDiscipline :
    TraceDisciplined (asking State.reset (.call "GET_INT_STATUS" [])) ∧
    ∃ t, step (asking State.reset (.call "GET_INT_STATUS" [])) = .next t :=
  ⟨⟨rfl, rfl, rfl, rfl, rfl, rfl⟩, step_of_call⟩

theorem witness_StepKeepsOneFaultAtMost :
    OneFaultAtMost (asking State.reset (.call "GET_INT_STATUS" [])) ∧
    (∃ t, step (asking State.reset (.call "GET_INT_STATUS" [])) = .next t) ∧
    OneFaultAtMost (asking (stuck 0b10) .reset) ∧ ∃ t, step (asking (stuck 0b10) .reset) = .next t :=
  ⟨.inl rfl, step_of_call, .inr (.inr rfl), _, rfl⟩

theorem witness_StepKeepsPowerMatchingMode :
    PowerMatchesMode (asking State.reset (.call "GET_INT_STATUS" [])) ∧
    (∃ t, step (asking State.reset (.call "GET_INT_STATUS" [])) = .next t) ∧
    PowerMatchesMode { fm with pwr := .up (.func 0x0) } := ⟨.inl rfl, step_of_call, .inr ⟨rfl, by decide⟩⟩

/-- POWER_UP and POWER_DOWN answer a next state. -/
theorem witness_OnlyPowerUpWritesMode :
    (∃ t, exec (.powerUp 0xFF 0) State.reset = .next t) ∧ ∃ t, exec .powerDown State.reset = .next t :=
  ⟨⟨_, runCommand_admitted ⟨true, none, true, [0x01, 0xFF, 0x00], settlePowerUp, .long⟩
      (fun t => t.poweredUp 0xFF) State.reset rfl rfl⟩,
    ⟨_, runCommand_admitted ⟨true, none, true, [0x11], settleBase, .short⟩ State.poweredDown State.reset rfl rfl⟩⟩

theorem witness_TraceOnlyGrowsAndParametersStay :
    (∃ t, step (asking State.reset (.call "GET_INT_STATUS" [])) = .next t) ∧
    (asking State.reset (.call "GET_INT_STATUS" [])).calls.head? ≠ some .reset :=
  ⟨step_of_call, by decide⟩

/-- Two blocks that differ in BUF, PWR, LINES and SR. -/
theorem witness_NoEarlierResponseAffectsACommand :
    let s' : State := { State.reset with
      buf := bufOf [0xAA], pwr := .up (.func 0x0), lines := { Lines.reset with dout := true }, sr := 0xFF }
    s'.fault = 0 ∧ State.reset.mode = s'.mode ∧ State.reset.params = s'.params ∧
    State.reset.draws = s'.draws ∧ State.reset ≠ s' ∧
    ∃ t, exec .getRev State.reset = .next t ∧ t.fault = 0 :=
  ⟨rfl, rfl, rfl, rfl, by decide, witness_commands_pass.2.2⟩

/-- Both kinds of answer, with PWR replaced by another value. -/
theorem witness_PowerRecordAffectsNothing :
    (∃ t, exec .getRev State.reset = .next t) ∧ exec .getRev (stuck 0b01) = .fault .stuck ∧
    State.reset.pwr ≠ .up (.func 0x0) :=
  ⟨witness_commands_pass.2.2.imp fun _ h => h.1, rfl, by decide⟩

end Sys2Proof.Tests
end

section
/-! PROOFS. The transactions as frames of clock pulses (30_encoding.md R60 to R62). -/

namespace Sys2Proof.Safety

open Machine

/-! ### The pulses of an enable bracket -/

/-- The epilogue releases the enable without a pulse, so a bracket holds the control byte's pulses and those
of its body, which starts with the line driven. -/
theorem linePulses_bracket (l : Lines) (ctrl : Byte) (body : List Event) :
    linePulses l (bracket ctrl body) =
      (byteBits ctrl).map (fun v => (.asserted, .output, v)) ++
        linePulses (sending (ctrl.getLsbD 0)) body := by
  have hopen : linePulses l ([.dir .output, .en .asserted] ++ sendEvents ctrl) =
      (byteBits ctrl).map fun v => (.asserted, .output, v) := rfl
  have hclose : ∀ l', linePulses l' [.en .released] = [] := fun _ => rfl
  rw [bracket, linePulses_append, linePulses_append, hopen, replay_open, hclose, List.append_nil]

theorem pulses_bracket (ctrl : Byte) (body : List Event) :
    pulses (bracket ctrl body) = 8 + pulses body := by
  have hopen : pulses ([.dir .output, .en .asserted] ++ sendEvents ctrl) = 8 := rfl
  have hclose : pulses [.en .released] = 0 := rfl
  rw [bracket, pulses_append, pulses_append, hopen, hclose, Nat.add_zero]

/-! ### The pulses of each transaction -/

theorem linePulses_writeEvents (l : Lines) (payload : List Byte) :
    linePulses l (writeEvents payload) =
      ((0x48 : Byte) :: payload).flatMap fun b => (byteBits b).map fun v => (.asserted, .output, v) := by
  rw [writeEvents, linePulses_bracket, linePulses_sends, List.flatMap_cons]

theorem pulses_writeEvents (payload : List Byte) :
    pulses (writeEvents payload) = 8 + payload.length * 8 := by
  rw [writeEvents, pulses_bracket, flatMap_pulses_const _ 8 sendEvents_pulses]

theorem linePulses_shortReadEvents (l : Lines) (n : Nat) :
    linePulses l (shortReadEvents n) =
      (byteBits 0x80).map (fun v => (.asserted, .output, v)) ++
        (byteBits (deviceByte n)).map fun v => (.asserted, .input, v) := by
  rw [shortReadEvents, linePulses_bracket, linePulses_recvEvents _ _ rfl]

theorem pulses_shortReadEvents (n : Nat) : pulses (shortReadEvents n) = 16 := by
  rw [shortReadEvents, pulses_bracket, recvEvents_pulses]

theorem allOffsets_vals : allOffsets.map Fin.val = List.range 16 := rfl

theorem linePulses_longReadEvents (l : Lines) (n : Nat) :
    linePulses l (longReadEvents n) =
      (byteBits 0xC0).map (fun v => (.asserted, .output, v)) ++
        allOffsets.flatMap fun k =>
          (byteBits (deviceByte (n + 8 * k.val))).map fun v => (.asserted, .input, v) := by
  rw [longReadEvents, linePulses_bracket, linePulses_recvs _ _ _ rfl, ← allOffsets_vals,
    List.flatMap_map]

theorem pulses_longReadEvents (n : Nat) : pulses (longReadEvents n) = 136 := by
  rw [longReadEvents, pulses_bracket, flatMap_pulses_const _ 8 (fun k => recvEvents_pulses (n + 8 * k)),
    List.length_range]

end Sys2Proof.Safety

namespace Sys2Proof.Machine

open Safety

/-! ### The bytes a read stores, and the run of an operation that cannot fail -/

theorem State.shortReadTxn_readBuf_zero (s : State) : s.shortReadTxn.readBuf 0 = deviceByte s.draws := by
  rw [State.shortReadTxn_eq]
  exact Memory.read_write_same _ _ _

theorem State.longReadTxn_readBuf (s : State) (k : Offset) :
    s.longReadTxn.readBuf k = deviceByte (s.draws + 8 * k.val) := by
  rw [State.longReadTxn_eq]
  exact Memory.read_fill_all _ _ _

theorem runMicro_ok (op : State → State) (s : State) (h : s.fault = 0) :
    runMicro op s = .next (op s) := State.guarded_ok _ _ h

/-! ### The frames -/

/-- Settles O7: each transaction appends one enable bracket to TRACE, whose pulses are the control byte's and
those of its body; the bytes a read samples are the ones it stores. -/
theorem wireFramesCarryTheirPulses : Obligations.WireFramesCarryTheirPulses := by
  intro s h
  refine ⟨⟨s.writeTxn, writeEvents (payloadOffsets.map s.readBuf), runMicro_ok _ _ h, ?_, ?_, ?_⟩,
    ⟨s.shortReadTxn, shortReadEvents s.draws, runMicro_ok _ _ h, ?_, ?_, ?_⟩,
    ⟨s.longReadTxn, longReadEvents s.draws, runMicro_ok _ _ h, ?_, ?_, ?_⟩⟩
  · rw [State.writeTxn_eq]
  · rw [pulses_writeEvents, List.length_map]
    rfl
  · exact linePulses_writeEvents _ _
  · rw [State.shortReadTxn_eq]
  · exact pulses_shortReadEvents _
  · rw [linePulses_shortReadEvents, State.shortReadTxn_readBuf_zero]
  · rw [State.longReadTxn_eq]
  · exact pulses_longReadEvents _
  · simp only [linePulses_longReadEvents, State.longReadTxn_readBuf]

end Sys2Proof.Machine
end

section
/-! PROOFS. Staging a command's payload (42_commands.md R98). -/

namespace Sys2Proof.Machine

/-! ### The two parts of the padded payload -/

theorem padded_getD_of_lt (bytes : List Byte) (k : Nat) (h : k < bytes.length) :
    (padded bytes).getD k 0x00 = bytes[k] := by
  rw [padded, List.getD_append _ _ _ _ h, List.getD_eq_getElem _ _ h]

theorem padded_getD_of_le (bytes : List Byte) (k : Nat) (h : bytes.length ≤ k) (hk : k < 8) :
    (padded bytes).getD k 0x00 = 0x00 := by
  rw [padded, List.getD_append_right _ _ _ _ h, List.getD_replicate _ (by omega)]

/-! ### The bytes of BUF after STAGE -/

theorem State.stage_readBuf_of_lt (bytes : List Byte) (s : State) (k : Offset) (h : k.val < 8) :
    (s.stage bytes).readBuf k = (padded bytes).getD k.val 0x00 := by
  rw [State.stage_eq, State.readBuf, Memory.read_staged, if_pos h]

theorem State.stage_readBuf_of_le (bytes : List Byte) (s : State) (k : Offset) (h : 8 ≤ k.val) :
    (s.stage bytes).readBuf k = s.readBuf k := by
  rw [State.stage_eq, State.readBuf, Memory.read_staged, if_neg (Nat.not_lt.mpr h), State.readBuf]

/-- Settles O8: STAGE writes the padded payload to BUF[0..7], whose first N bytes are the staged ones. -/
theorem stageZeroesThePayloadBeyondItsBytes : Obligations.StageZeroesThePayloadBeyondItsBytes := by
  intro bytes s _ hle
  refine ⟨⟨_, State.stage_eq bytes s⟩, fun k h => ?_, fun k h hk => ?_, State.stage_readBuf_of_le bytes s⟩
  · rw [State.stage_readBuf_of_lt bytes s k (h.trans_le hle), padded_getD_of_lt]
  · rw [State.stage_readBuf_of_lt bytes s k hk, padded_getD_of_le bytes k.val h hk]

end Sys2Proof.Machine
end

section
/-! PROOFS. The accessors that hand back bytes of BUF (43_response_view.md R132, R138 to R140, R144). -/

namespace Sys2Proof.Machine

open Safety

/-! ### The words two accessors hand back: each is one operation that cannot fail (R145) -/

theorem exec_frequency (s : State) (h : s.fault = 0) :
    exec .frequency s = .next { s with ret := some (.u16 (be16 (s.readBuf 2) (s.readBuf 3))) } :=
  runMicro_ok _ s h

theorem exec_freqOffset (s : State) (h : s.fault = 0) :
    exec .freqOffset s = .next { s with ret := some (.s16 (sext16 (s.readBuf 7))) } :=
  runMicro_ok _ s h

/-! ### The staged bytes after a short response -/

/-- A short read refreshes BUF[0] alone of the payload's offsets (R93, R98). -/
theorem ran_short_readBuf {s t : State} {payload : List Byte} {us : Nat} (hr : Ran s t payload us .short)
    (k : Offset) (h0 : k ≠ 0) (h8 : k.val < 8) : t.readBuf k = payload.getD k.val 0x00 := by
  rw [hr.buf, bufAfter, if_neg h0, if_pos h8]

/-! ### The accessors -/

/-- Settles O26: `frequency` joins BUF[2] and BUF[3]; a short response leaves both as they were staged, and
the run of its command leaves FAULT clear. -/
theorem frequencyReadsBytesTwoAndThreeBigEndian : Obligations.FrequencyReadsBytesTwoAndThreeBigEndian := by
  refine ⟨fun s h => ⟨_, exec_frequency s h, be16_toNat _ _⟩, fun s t b0 b1 b2 b3 b4 b5 b6 b7 us h hr => ?_⟩
  have h2 : t.readBuf 2 = b2 := ran_short_readBuf hr 2 (by decide) (by decide)
  have h3 : t.readBuf 3 = b3 := ran_short_readBuf hr 3 (by decide) (by decide)
  refine ⟨_, exec_frequency t (hr.fault.trans h), ?_⟩
  rw [h2, h3, be16_toNat]

/-- Settles O29: sign extension keeps the signed value, and a byte's lies from -128 to 127. -/
theorem freqOffsetIsTheSignedByteSeven : Obligations.FreqOffsetIsTheSignedByteSeven := by
  intro s h
  refine ⟨_, exec_freqOffset s h, sext16_toInt _, ?_⟩
  rw [sext16_toInt]
  exact ⟨BitVec.le_toInt _, Int.le_sub_one_of_lt BitVec.toInt_lt⟩

/-- Settles O24: each of the three is one operation that cannot fail and hands back its byte of BUF. -/
theorem byteAccessorsReturnTheirBytes : Obligations.ByteAccessorsReturnTheirBytes := fun s h =>
  ⟨runMicro_ok _ s h, runMicro_ok _ s h, runMicro_ok _ s h⟩

end Sys2Proof.Machine
end

section
/-! PROOFS. The decoder and the encoder are inverse to each other on the wire (30_encoding.md R58, R59, R64, R65, R70). -/

namespace Sys2Proof

open Machine Safety

/-! ### Operands on the wire and back (R65, R66) -/

theorem toU8_toNat {n : Nat} (h : fitsU8 n = true) : (toU8 n).toNat = n :=
  Nat.mod_eq_of_lt (of_decide_eq_true h)

theorem toU16_toNat {n : Nat} (h : fitsU16 n = true) : (toU16 n).toNat = n :=
  Nat.mod_eq_of_lt (of_decide_eq_true h)

theorem be16_hi_lo (w : Half) : be16 (hi w) (lo w) = w := by
  apply BitVec.eq_of_toNat_eq
  rw [be16_toNat]
  simp only [hi, lo, BitVec.extractLsb'_toNat, Nat.shiftRight_eq_div_pow]
  omega

theorem a8_toNat (n : Nat) : (a8 n).toNat = n % 256 := by
  rw [a8_eq, lowByte, BitVec.toNat_ofNat]
  omega

theorem amSetup_toNat (n : Nat) : (amSetup n).toNat = n % 2 := by
  rw [amSetup_eq, byteOf, BitVec.toNat_ofNat]
  omega

theorem amSetup_bit (n : Nat) : amSetup n = 0#8 ∨ amSetup n = 1#8 := by
  rw [amSetup_eq]
  rcases Nat.mod_two_eq_zero_or_one n with h | h <;> simp [h, byteOf]

theorem fitsU8_toNat (b : Byte) : fitsU8 b.toNat = true := decide_eq_true b.isLt

theorem fitsU16_toNat (w : Half) : fitsU16 w.toNat = true := decide_eq_true w.isLt

theorem fitsU16_byte_toNat (b : Byte) : fitsU16 b.toNat = true := decide_eq_true (by omega)

theorem toU8_of_toNat (b : Byte) : toU8 b.toNat = b := BitVec.ofNat_toNat 8 b

theorem toU16_of_toNat (w : Half) : toU16 w.toNat = w := BitVec.ofNat_toNat 16 w

theorem hi_be16 (a b : Byte) : hi (be16 a b) = a := BitVec.extractLsb'_append_eq_left

theorem lo_be16 (a b : Byte) : lo (be16 a b) = b := BitVec.extractLsb'_append_eq_right

theorem a8_of_toNat (b : Byte) : a8 b.toNat = b := by
  apply BitVec.eq_of_toNat_eq
  rw [a8_toNat]
  exact Nat.mod_eq_of_lt b.isLt

theorem amSetup_of_bit {b : Byte} (h : b = 0#8 ∨ b = 1#8) : amSetup b.toNat = b := by
  rcases h with rfl | rfl <;> rfl

/-! ### The rows of the payload table -/

theorem payloadRows_opcodes (p : Params) (b1 b2 b3 b4 b5 : Byte) :
    ((payloadRows p b1 b2 b3 b4 b5).map DecodeRow.opcode).Perm opcodes := by
  have h : (payloadRows p b1 b2 b3 b4 b5).map DecodeRow.opcode =
      (payloadRows Params.default 0 0 0 0 0).map DecodeRow.opcode := by
    cases hl : p.seekFmLayout <;> simp only [payloadRows, hl] <;> rfl
  rw [h]
  decide

/-- Opcodes are distinct, so the search for one finds the row that has it. -/
theorem payloadRows_find?_eq_some_iff (p : Params) (b0 b1 b2 b3 b4 b5 : Byte) (r : DecodeRow) :
    (payloadRows p b1 b2 b3 b4 b5).find? (fun r => r.opcode == b0) = some r ↔
      r ∈ payloadRows p b1 b2 b3 b4 b5 ∧ r.opcode = b0 := by
  have hnd : ((payloadRows p b1 b2 b3 b4 b5).map DecodeRow.opcode).Nodup :=
    (payloadRows_opcodes p b1 b2 b3 b4 b5).nodup_iff.mpr (by decide)
  constructor
  · intro h
    exact ⟨List.mem_of_find?_eq_some h, by simpa using List.find?_some h⟩
  · rintro ⟨hr, hb⟩
    have hsome : ((payloadRows p b1 b2 b3 b4 b5).find? (fun r => r.opcode == b0)).isSome :=
      List.find?_isSome.mpr ⟨r, hr, by simpa using hb⟩
    obtain ⟨r', hr'⟩ := Option.isSome_iff_exists.mp hsome
    have hb' : r'.opcode = b0 := by simpa using List.find?_some hr'
    rw [hr', List.inj_on_of_nodup_map hnd (List.mem_of_find?_eq_some hr') hr (hb'.trans hb.symm)]

theorem payloadRows_find?_eq_none (p : Params) (b0 b1 b2 b3 b4 b5 : Byte) (h : b0 ∉ opcodes) :
    (payloadRows p b1 b2 b3 b4 b5).find? (fun r => r.opcode == b0) = none := by
  refine List.find?_eq_none.mpr fun r hr he => h ?_
  rw [← (payloadRows_opcodes p b1 b2 b3 b4 b5).mem_iff, ← beq_iff_eq.mp he]
  exact List.mem_map_of_mem hr

/-- Eight bytes decode to an instruction exactly when they are its row's: opcode, fixed bytes and padding. -/
theorem decode_payload_eq_ok_iff (p : Params) (b0 b1 b2 b3 b4 b5 b6 b7 : Byte) (i : Instr) :
    decode p [b0, b1, b2, b3, b4, b5, b6, b7] = .ok i ↔
      ∃ r ∈ payloadRows p b1 b2 b3 b4 b5, r.opcode = b0 ∧ r.fixedOk = true ∧
        (∀ b ∈ [b0, b1, b2, b3, b4, b5, b6, b7].drop r.staged, b = 0) ∧ r.instr = i := by
  have hiff := payloadRows_find?_eq_some_iff p b0 b1 b2 b3 b4 b5
  simp only [decode, decodePayload]
  constructor
  · intro h
    split at h
    · cases h
    · rename_i r hr
      obtain ⟨hmem, hop⟩ := (hiff r).mp hr
      split at h
      · cases h
      · split at h
        · rename_i hfix hpad
          cases h
          exact ⟨r, hmem, hop, by simpa using hfix, by simpa using hpad, rfl⟩
        · cases h
  · rintro ⟨r, hmem, hop, hfix, hpad, rfl⟩
    rw [(hiff r).mpr ⟨hmem, hop⟩]
    have hall : ([b0, b1, b2, b3, b4, b5, b6, b7].drop r.staged).all (fun b => b == 0) = true := by
      simpa using hpad
    simp only [hfix, hall]
    rfl

/-! ### The two directions -/

theorem decode_encode_amTuneFreq (p : Params) (setup freq cap : Nat) (hf : fitsU16 freq = true)
    (hk : fitsU16 cap = true) :
    decode p (encode p (.amTuneFreq setup freq cap)) = .ok (.amTuneFreq (setup % 2) freq cap) := by
  refine (decode_payload_eq_ok_iff ..).mpr ⟨_, List.mem_of_getElem? (i := 7) rfl, rfl, ?_, by simp, ?_⟩
  · simpa using amSetup_bit setup
  · simp only [amSetup_toNat, be16_hi_lo, toU16_toNat hf, toU16_toNat hk]

/-- The decoder, evaluated on a command's encoding, reads back what the bytes of its operands hold; only the AM
tune has a fixed field that is not evaluated so. -/
theorem decode_encode_command (p : Params) (i : Instr) (hc : i.isCommand = true) (hw : i.wellFormed = true) :
    decode p (encode p i) = .ok (i.onWire p) := by
  by_cases ham : ∃ setup freq cap, i = .amTuneFreq setup freq cap
  · obtain ⟨setup, freq, cap, rfl⟩ := ham
    obtain ⟨⟨-, hf⟩, hk⟩ : (fitsU8 setup = true ∧ fitsU16 freq = true) ∧ fitsU16 cap = true := by
      simpa only [Instr.wellFormed, Bool.and_eq_true] using hw
    exact decode_encode_amTuneFreq p setup freq cap hf hk
  · obtain ⟨amFunc, policy, layout⟩ := p
    cases layout <;> cases i
    all_goals first
      | exact absurd hc Bool.false_ne_true
      | exact Eq.trans (b := .ok _) rfl
          (by simp_all [Instr.onWire, Instr.wellFormed, toU8_toNat, toU16_toNat, be16_hi_lo, a8_toNat])
      | exact absurd ⟨_, _, _, rfl⟩ ham

theorem decode_encode_transaction (p : Params) (i : Instr) (ht : i.isTransaction = true) :
    decode p (encode p i) = .ok (i.onWire p) := by
  simp only [Instr.isTransaction, Bool.or_eq_true, decide_eq_true_eq] at ht
  rcases ht with (rfl | rfl) | rfl <;> rfl

/-- Settles O42: a payload for a command, a control byte for a transaction. -/
theorem decodeOfEncodeIsTheInstructionOnTheWire : Obligations.DecodeOfEncodeIsTheInstructionOnTheWire := by
  intro p i hw he
  rcases Bool.or_eq_true_iff.mp he with hc | ht
  · exact decode_encode_command p i hc hw
  · exact decode_encode_transaction p i ht

theorem payloadRows_wellFormed (p : Params) (b1 b2 b3 b4 b5 : Byte) :
    ∀ r ∈ payloadRows p b1 b2 b3 b4 b5, r.instr.wellFormed = true := by
  have hzero : fitsU16 0 = true := rfl
  cases hl : p.seekFmLayout <;>
    simp [payloadRows, hl, Instr.wellFormed, fitsU8_toNat, fitsU16_toNat, fitsU16_byte_toNat, hzero]

theorem payloadRows_onWire (p : Params) (b1 b2 b3 b4 b5 : Byte) :
    ∀ r ∈ payloadRows p b1 b2 b3 b4 b5, r.fixedOk = true → r.instr.onWire p = r.instr := by
  have hbyte : ∀ b : Byte, b.toNat % 256 = b.toNat := fun b => Nat.mod_eq_of_lt b.isLt
  have hbit : ∀ b : Byte, b = 0#8 ∨ b = 1#8 → b.toNat % 2 = b.toNat := by
    rintro b (rfl | rfl) <;> rfl
  cases hl : p.seekFmLayout <;>
    simp +contextual [payloadRows, hl, Instr.onWire, hbyte, hbit]

/-- The encoding of a row's instruction is what the row stages, padded. -/
theorem payloadRows_encode (p : Params) (b1 b2 b3 b4 b5 b6 b7 : Byte) :
    ∀ r ∈ payloadRows p b1 b2 b3 b4 b5, r.fixedOk = true →
      encode p r.instr = padded ([r.opcode, b1, b2, b3, b4, b5, b6, b7].take r.staged) := by
  cases hl : p.seekFmLayout <;>
    simp +contextual [payloadRows, hl, encode, toU8_of_toNat, toU16_of_toNat, hi_be16, lo_be16, a8_of_toNat,
      amSetup_of_bit]

theorem padded_take {l : List Byte} {n : Nat} (hl : l.length = 8) (h : ∀ b ∈ l.drop n, b = 0) :
    padded (l.take n) = l := by
  have hrep : l.drop n = List.replicate (8 - (l.take n).length) 0x00 :=
    List.eq_replicate_iff.mpr ⟨by rw [List.length_drop, List.length_take]; omega, h⟩
  rw [padded, ← hrep, List.take_append_drop]

theorem decode_of_length_ne (p : Params) (bytes : List Byte) (h1 : bytes.length ≠ 1) (h8 : bytes.length ≠ 8) :
    decode p bytes = .error .badLength := by
  unfold decode
  split
  · exact absurd rfl h1
  · unfold decodePayload
    split
    · exact absurd rfl h8
    · rfl

theorem encode_of_decode_ctrl (p : Params) (c : Byte) (i : Instr) (h : decode p [c] = .ok i) :
    encode p i = [c] ∧ i.wellFormed = true ∧ i.onWire p = i := by
  simp only [decode, decodeCtrl] at h
  split_ifs at h with h1 h2 h3
  · cases h; exact ⟨congrArg (fun b => [b]) h1.symm, rfl, rfl⟩
  · cases h; exact ⟨congrArg (fun b => [b]) h2.symm, rfl, rfl⟩
  · cases h; exact ⟨congrArg (fun b => [b]) h3.symm, rfl, rfl⟩

theorem encode_of_decode_payload (p : Params) (b0 b1 b2 b3 b4 b5 b6 b7 : Byte) (i : Instr)
    (h : decode p [b0, b1, b2, b3, b4, b5, b6, b7] = .ok i) :
    encode p i = [b0, b1, b2, b3, b4, b5, b6, b7] ∧ i.wellFormed = true ∧ i.onWire p = i := by
  obtain ⟨r, hr, rfl, hfix, hpad, rfl⟩ := (decode_payload_eq_ok_iff ..).mp h
  refine ⟨?_, payloadRows_wellFormed _ _ _ _ _ _ r hr, payloadRows_onWire _ _ _ _ _ _ r hr hfix⟩
  rw [payloadRows_encode p b1 b2 b3 b4 b5 b6 b7 r hr hfix, padded_take rfl hpad]

/-- Settles O43: what decodes is a control byte or a payload that meets its row. -/
theorem encodeOfDecodeIsTheBytes : Obligations.EncodeOfDecodeIsTheBytes := by
  intro p bytes i h
  by_cases h1 : bytes.length = 1
  · obtain ⟨c, rfl⟩ := List.length_eq_one_iff.mp h1
    exact encode_of_decode_ctrl p c i h
  · by_cases h8 : bytes.length = 8
    · match bytes, h8 with
      | [b0, b1, b2, b3, b4, b5, b6, b7], _ => exact encode_of_decode_payload p b0 b1 b2 b3 b4 b5 b6 b7 i h
    · rw [decode_of_length_ne p bytes h1 h8] at h
      cases h

/-! ### What is no encoding, and the control bytes (R59, R70) -/

/-- Settles O45: no row has the opcode; and a byte string of another length is neither format. -/
theorem otherOpcodesAreRejected : Obligations.OtherOpcodesAreRejected := by
  refine fun p bytes => ⟨?_, decode_of_length_ne p bytes⟩
  rintro b0 rest rfl h7 hop
  match rest, h7 with
  | [b1, b2, b3, b4, b5, b6, b7], _ =>
    rw [decode, decodePayload, payloadRows_find?_eq_none p b0 b1 b2 b3 b4 b5 hop]
    simp

/-- Settles O44: the decoder of control bytes is that chain of comparisons. -/
theorem controlBytesAreThreeWholeValues : Obligations.ControlBytesAreThreeWholeValues := fun _ _ => rfl

/-- Settles O46: the eight fixed words, evaluated. -/
theorem writtenOutPayloadsDecode : Obligations.WrittenOutPayloadsDecode := by
  unfold Obligations.WrittenOutPayloadsDecode
  decide

end Sys2Proof
end

section
/-! PROOFS. What every step keeps: BUF's form, the bus at rest, the line discipline, FAULT, PWR and MODE, TRACE (10_state.md, 40_transport.md R84, R85). -/

namespace Sys2Proof.Machine

open Safety

/-! ### The invariants that every operation of a step keeps -/

theorem Memory.wf_exchanged (m : Memory) (n : Nat) (c : Command) (h : m.wf = true) :
    (Memory.exchanged m n c).wf = true := by
  unfold Memory.exchanged
  split
  · exact Memory.wf_write _ _ _ (Memory.wf_staged _ _ h)
  · exact Memory.wf_fill _ _ _ (Memory.wf_staged _ _ h)

/-- Settles O51: BUF is written by byte writes alone. -/
theorem stepKeepsBufCanonical : Obligations.StepKeepsBufCanonical := by
  refine step_keeps (P := BufCanonical) (fun _ _ h => h) (fun i s h => ?_) (fun c s hl h => ?_)
    (fun _ _ h => h) (fun _ _ => rfl) (fun _ _ h => h)
  · rw [beforeOf_frame]; exact h
  · rw [State.exchange_eq c s hl]
    exact Memory.wf_exchanged _ _ _ h

/-- Settles O52: the read that ends EXEC releases the enable with the clock low, and EXEC ends in IDLE. -/
theorem stepKeepsTheBusAtRest : Obligations.StepKeepsTheBusAtRest := by
  refine step_keeps (P := AtRest) (fun _ _ ⟨he, hc, hp, hb⟩ => ⟨he, hc, hp, hb⟩)
    (fun i s ⟨he, hc, hp, hb⟩ => ?_) (fun c s hl _ => ?_) (fun _ _ ⟨he, hc, hp, hb⟩ => ⟨he, hc, hp, hb⟩)
    (fun _ _ => ⟨rfl, rfl, rfl, rfl⟩) (fun _ _ ⟨he, hc, hp, hb⟩ => ⟨he, hc, hp, hb⟩)
  · rw [beforeOf_frame]; exact ⟨he, hc, hp, hb⟩
  · rw [State.exchange_eq c s hl]
    exact ⟨rfl, rfl, rfl, rfl⟩

/-! ### The line discipline -/

theorem replay_writeEvents_rest (l : Lines) (payload : List Byte) :
    (l.replay (writeEvents payload)).en = .released ∧ (l.replay (writeEvents payload)).clk = false := by
  obtain ⟨d, hd⟩ := replay_sends ((0x48 : Byte).getLsbD 0) payload
  rw [writeEvents, bracket, replay_append, replay_append, replay_open, hd]
  exact ⟨rfl, rfl⟩

theorem replay_readEvents (l : Lines) (r : Resp) (n : Nat) :
    l.replay (readEvents r n) = { en := .released, clk := false, ddir := .input, dout := false } := by
  cases r
  · exact replay_shortReadEvents l n
  · exact replay_longReadEvents l n

theorem disciplined_readEvents (l : Lines) (r : Resp) (n : Nat) (he : l.en = .released) (hc : l.clk = false) :
    disciplined l (readEvents r n) = true := by
  cases r
  · exact disciplined_shortReadEvents l n he hc
  · exact disciplined_longReadEvents l n he hc

theorem replay_commandEvents (l : Lines) (payload : List Byte) (us : Nat) (r : Resp) (n : Nat) :
    l.replay (commandEvents payload us r n) =
      { en := .released, clk := false, ddir := .input, dout := false } := by
  rw [commandEvents, replay_append, replay_readEvents]

/-- A command's events are two enable brackets with a settle between them. -/
theorem disciplined_commandEvents (l : Lines) (payload : List Byte) (us : Nat) (r : Resp) (n : Nat)
    (he : l.en = .released) (hc : l.clk = false) : disciplined l (commandEvents payload us r n) = true := by
  obtain ⟨he', hc'⟩ := replay_writeEvents_rest l payload
  have hsettle : ∀ l' : Lines, l'.replay [.settle us] = l' := fun _ => rfl
  rw [commandEvents, disciplined_append, disciplined_append, disciplined_writeEvents l payload he hc,
    replay_append, hsettle, disciplined_readEvents _ r n he' hc']
  simp [disciplined, allowed, he', hc']

theorem traceDisciplined_congr {s t : State} (h : TraceDisciplined s) (hl : t.lines = s.lines)
    (ht : t.trace = s.trace) (hp : t.phase = s.phase) (hb : t.bitIdx = s.bitIdx) : TraceDisciplined t := by
  obtain ⟨hlines, hkept, hen, hclk, hphase, hbit⟩ := h
  exact ⟨by rw [hl, ht, hlines], by rw [ht, hkept], by rw [hl, hen], by rw [hl, hclk], by rw [hp, hphase],
    by rw [hb, hbit]⟩

/-- Settles O53: a step appends no event or a command's events, which start and end at rest. -/
theorem stepKeepsTheLineDiscipline : Obligations.StepKeepsTheLineDiscipline := by
  refine step_keeps (P := TraceDisciplined) (fun _ _ h => traceDisciplined_congr h rfl rfl rfl rfl)
    (fun i s h => ?_) (fun c s hl h => ?_) (fun _ _ h => traceDisciplined_congr h rfl rfl rfl rfl)
    (fun _ _ => ⟨rfl, rfl, rfl, rfl, rfl, rfl⟩) (fun _ _ h => traceDisciplined_congr h rfl rfl rfl rfl)
  · rw [beforeOf_frame]
    exact traceDisciplined_congr h rfl rfl rfl rfl
  · obtain ⟨hlines, hkept, hrest⟩ := h
    rw [State.exchange_eq c s hl]
    refine ⟨?_, ?_, rfl, rfl, rfl, rfl⟩
    · rw [replay_append, replay_commandEvents]
    · rw [disciplined_append, hkept, ← hlines, disciplined_commandEvents _ _ _ _ _ hrest.en hrest.clk]
      rfl

/-! ### MODE and PWR -/

/-- The only writers of MODE and PWR (10_state.md R23, R24). -/
theorem beforeOf_modePwr (i : Instr) (s : State) :
    (∃ setup audioOut, i = .powerUp setup audioOut ∧ (beforeOf i s).mode = .func (funcOf setup) ∧
      (beforeOf i s).pwr = .up (.func (funcOf setup))) ∨
    (i = .powerDown ∧ (beforeOf i s).mode = s.mode ∧ (beforeOf i s).pwr = .down) ∨
    ((beforeOf i s).mode = s.mode ∧ (beforeOf i s).pwr = s.pwr) := by
  cases i
  case powerUp setup audioOut => exact .inl ⟨setup, audioOut, rfl, rfl, rfl⟩
  case powerDown => exact .inr (.inl ⟨rfl, rfl, rfl⟩)
  all_goals exact .inr (.inr ⟨rfl, rfl⟩)

theorem State.exchange_mode (c : Command) (s : State) (h : c.staged.length ≤ 8) :
    (s.exchange c).mode = s.mode := by rw [State.exchange_eq c s h]

theorem State.exchange_pwr (c : Command) (s : State) (h : c.staged.length ≤ 8) :
    (s.exchange c).pwr = s.pwr := by rw [State.exchange_eq c s h]

/-- Settles O55: POWER_UP writes MODE and PWR together, POWER_DOWN leaves PWR Down, and no other operation
writes either. -/
theorem stepKeepsPowerMatchingMode : Obligations.StepKeepsPowerMatchingMode := by
  refine step_keeps (P := PowerMatchesMode) (fun _ _ h => h) (fun i s h => ?_) (fun c s hl h => ?_)
    (fun _ _ h => h) (fun _ _ => .inl rfl) (fun _ _ h => h)
  · rcases beforeOf_modePwr i s with ⟨setup, audioOut, -, hm, hp⟩ | ⟨-, -, hp⟩ | ⟨hm, hp⟩
    · exact .inr ⟨by rw [hm, hp], by rw [hm]; exact fun h => by cases h⟩
    · exact .inl hp
    · rw [PowerMatchesMode, hm, hp]
      exact h
  · rw [PowerMatchesMode, State.exchange_mode c s hl, State.exchange_pwr c s hl]
    exact h

/-- A next state of an instruction: a fault raised, a command run whole, or (transactions, transport primitives,
accessors) MODE, PWR, FAULT and the parameters kept, TRACE and the draws only extended. -/
theorem exec_next_frame (i : Instr) (s t : State) (h : exec i s = .next t) :
    s.fault = 0 ∧ ((∃ k, t = s.raise k) ∨
      (∃ c : Command, c.staged.length ≤ 8 ∧ t = (beforeOf i s).exchange c) ∨
      (t.mode = s.mode ∧ t.pwr = s.pwr ∧ t.fault = s.fault ∧ t.params = s.params ∧ s.trace <+: t.trace ∧
        s.draws ≤ t.draws)) := by
  obtain ⟨hf, hc⟩ := exec_next i s t h
  refine ⟨hf, ?_⟩
  rcases hc with hk | ⟨c, -, hl, -, he⟩ | ⟨-, rfl⟩ | ⟨-, rfl⟩ | ⟨-, rfl⟩ | ⟨b, -, rfl⟩ | ⟨-, rfl⟩ | ⟨-, v, rfl⟩
  · exact .inl hk
  · exact .inr (.inl ⟨c, hl, he⟩)
  all_goals refine .inr (.inr ?_)
  · rw [State.writeTxn_eq]
    exact ⟨rfl, rfl, rfl, rfl, List.prefix_append _ _, le_rfl⟩
  · rw [State.shortReadTxn_eq]
    exact ⟨rfl, rfl, rfl, rfl, List.prefix_append _ _, Nat.le_add_right _ _⟩
  · rw [State.longReadTxn_eq]
    exact ⟨rfl, rfl, rfl, rfl, List.prefix_append _ _, Nat.le_add_right _ _⟩
  · rw [State.sendByte_eq]
    exact ⟨rfl, rfl, rfl, rfl, List.prefix_append _ _, le_rfl⟩
  · rw [State.recvByte_eq]
    exact ⟨rfl, rfl, rfl, rfl, List.prefix_append _ _, Nat.le_add_right _ _⟩
  · exact ⟨rfl, rfl, rfl, rfl, List.prefix_rfl, le_rfl⟩

/-- Settles O57: an instruction writes MODE and PWR only as the second part of EXEC does. -/
theorem onlyPowerUpWritesMode : Obligations.OnlyPowerUpWritesMode := by
  intro i s t h
  obtain ⟨-, ⟨k, rfl⟩ | ⟨c, hl, rfl⟩ | ⟨hm, hp, -⟩⟩ := exec_next_frame i s t h
  · exact ⟨.inl rfl, .inl rfl⟩
  · rw [State.exchange_mode c _ hl, State.exchange_pwr c _ hl]
    rcases beforeOf_modePwr i s with ⟨setup, audioOut, hi, hm, hp⟩ | ⟨hi, hm, hp⟩ | ⟨hm, hp⟩
    · rw [hm, hp, funcOf_eq]
      exact ⟨.inr ⟨setup, audioOut, hi, rfl⟩, .inr (.inr ⟨setup, audioOut, hi, rfl⟩)⟩
    · exact ⟨.inl hm, .inr (.inl ⟨hi, hp⟩)⟩
    · exact ⟨.inl hm, .inl hp⟩
  · exact ⟨.inl hm, .inl hp⟩

/-! ### FAULT -/

theorem raise_fault_of_zero {s : State} (h : s.fault = 0) (k : FaultBit) : (s.raise k).fault = k.mask := by
  rw [State.raise_fault, h]
  exact BitVec.zero_or

theorem mask_oneBit (k : FaultBit) : k.mask = 1 ∨ k.mask = 2 := by
  cases k
  · exact .inl rfl
  · exact .inr rfl

/-- Settles O36: an instruction leaves FAULT non-zero only by raising a fault on a block that is not stuck. -/
theorem faultsArePrecise : Obligations.FaultsArePrecise := by
  intro i s t h ht
  obtain ⟨hf, ⟨k, rfl⟩ | ⟨c, hl, rfl⟩ | ⟨-, -, h0, -⟩⟩ := exec_next_frame i s t h
  · refine ⟨hf, rfl, ?_⟩
    rw [raise_fault_of_zero hf]
    exact mask_oneBit k
  · rw [State.exchange_eq _ _ hl, beforeOf_frame] at ht
    exact absurd hf ht
  · exact absurd (h0.trans hf) ht

/-- Settles O54: a fault is raised only while FAULT is 0. -/
theorem stepKeepsOneFaultAtMost : Obligations.StepKeepsOneFaultAtMost := by
  intro s t h hst
  rcases step_next s t hst with
    ⟨-, -, rfl⟩ | ⟨rest, -, rfl⟩ | ⟨r, rest, i, -, -, -, he⟩ | ⟨r, rest, -, -, hf, rfl⟩
  · exact h
  · exact .inl rfl
  · by_cases ht : t.fault = 0
    · exact .inl ht
    · obtain ⟨-, -, hone⟩ := faultsArePrecise i _ t he ht
      exact .inr hone
  · rw [OneFaultAtMost, raise_fault_of_zero (s := s.accept rest) hf]
    exact .inr (mask_oneBit _)

/-- Settles O35: `exec` is stuck, and every step but a reset runs `exec`, a refusal or a wait, each guarded. -/
theorem faultedBlocksTakeNoStep : Obligations.FaultedBlocksTakeNoStep := by
  refine ⟨exec_stuck, fun s hf hr => ?_⟩
  unfold step
  split
  · exact State.guarded_stuck s _ hf
  · rename_i rest hc
    exact absurd (by rw [hc]; rfl) hr
  · split
    · exact exec_stuck _ _ hf
    · exact State.guarded_stuck _ _ hf

/-! ### TRACE, the parameters and the draws -/

/-- What every instruction does to the record of the run: TRACE grows, the parameters stay, no draw is taken
back. -/
theorem exec_next_grows (i : Instr) (s t : State) (h : exec i s = .next t) :
    s.trace <+: t.trace ∧ t.params = s.params ∧ s.draws ≤ t.draws := by
  obtain ⟨-, ⟨k, rfl⟩ | ⟨c, hl, rfl⟩ | ⟨-, -, -, hparams, htrace, hdraws⟩⟩ := exec_next_frame i s t h
  · exact ⟨List.prefix_rfl, rfl, le_rfl⟩
  · rw [State.exchange_eq _ _ hl, beforeOf_frame]
    exact ⟨List.prefix_append _ _, rfl, Nat.le_add_right _ _⟩
  · exact ⟨htrace, hparams, hdraws⟩

/-- Settles O58: waiting, refusing and a reset leave the record or start it anew; an instruction extends it. -/
theorem traceOnlyGrowsAndParametersStay : Obligations.TraceOnlyGrowsAndParametersStay := by
  intro s t hst
  rcases step_next s t hst with
    ⟨-, -, rfl⟩ | ⟨rest, hc, rfl⟩ | ⟨r, rest, i, -, -, -, he⟩ | ⟨r, rest, -, -, -, rfl⟩
  · exact ⟨fun _ => List.prefix_rfl, rfl, le_rfl⟩
  · exact ⟨fun hr => absurd (by rw [hc]; rfl) hr, rfl, le_rfl⟩
  · obtain ⟨htr, hp, hd⟩ := exec_next_grows i _ t he
    exact ⟨fun _ => htr, hp, hd⟩
  · exact ⟨fun _ => List.prefix_rfl, rfl, le_rfl⟩

/-! ### The reset -/

/-- Settles O1: the fields of the reset state, read off. -/
theorem resetLeavesTheTabledValues : Obligations.ResetLeavesTheTabledValues :=
  ⟨rfl, rfl, rfl, rfl, rfl, fun _ => rfl, rfl, rfl, rfl, rfl⟩

/-- Settles O37: the reset request is taken before anything else is asked of the state. -/
theorem resetStartsANewRun : Obligations.ResetStartsANewRun := by
  intro s rest h
  rw [step, h]
  rfl

/-- Settles O56: BUF is empty and so is TRACE. -/
theorem resetMeetsTheInvariants : Obligations.ResetMeetsTheInvariants :=
  ⟨State.reset_buf_wf, ⟨rfl, rfl, rfl, rfl⟩, ⟨rfl, rfl, rfl, rfl, rfl, rfl⟩, .inl rfl, .inl rfl⟩

end Sys2Proof.Machine
end

section
/-! PROOFS. The transport primitives, the transactions and the commands run to their ends (40_transport.md R80, R82; 41_framer.md R92 to R94; 42_commands.md R101 to R123). -/

namespace Sys2Proof.Machine

open Safety

/-! ### Transport and transactions -/

/-- Settles O2: the law of SEND_BYTE, on a block that is not stuck. -/
theorem sendByteEmitsItsBitsFromBitSeven : Obligations.SendByteEmitsItsBitsFromBitSeven := fun b s h =>
  ⟨(runMicro_ok _ s h).trans (congrArg _ (State.sendByte_eq b s)), sendEvents_length b⟩

/-- Settles O3: the law of RECV_BYTE; the value handed back is the SR it leaves. -/
theorem recvByteAssemblesEightSamples : Obligations.RecvByteAssemblesEightSamples := by
  refine fun s h => ⟨?_, recvEvents_length s.draws⟩
  rw [show exec .recvByte s = runMicro (fun t => t.recvByte.give (.u8 t.recvByte.sr)) s from rfl,
    runMicro_ok _ s h, State.recvByte_eq]
  rfl

/-- Settles O4: the law of WRITE_TXN. -/
theorem writeTxnSendsTheEightPayloadBytes : Obligations.WriteTxnSendsTheEightPayloadBytes := fun s h =>
  ⟨(runMicro_ok _ s h).trans (congrArg _ (State.writeTxn_eq s)), writeEvents_length _⟩

/-- Settles O5: the law of SHORT_READ_TXN, whose one write to BUF is at offset 0. -/
theorem shortReadTxnRefreshesBufZeroAlone : Obligations.ShortReadTxnRefreshesBufZeroAlone := fun s h =>
  ⟨⟨_, (runMicro_ok _ s h).trans (congrArg _ (State.shortReadTxn_eq s)), Memory.read_write_same _ _ _,
    fun _ hk => Memory.read_write_other _ _ _ _ hk⟩, shortReadEvents_length s.draws⟩

/-- Settles O6: the law of LONG_READ_TXN, which fills BUF. -/
theorem longReadTxnRefreshesAllSixteenBytes : Obligations.LongReadTxnRefreshesAllSixteenBytes := fun s h =>
  ⟨⟨_, (runMicro_ok _ s h).trans (congrArg _ (State.longReadTxn_eq s)), Memory.read_fill_all _ _⟩,
    longReadEvents_length s.draws⟩

/-! ### Commands that run in every MODE -/

theorem fitsU8_of_lt {n : Nat} (h : n < 256) : fitsU8 n = true := decide_eq_true h

theorem fitsU16_of_lt {n : Nat} (h : n < 65536) : fitsU16 n = true := decide_eq_true h

/-- The second and third part of EXEC leave what `Ran` says: writing MODE and PWR first changes none of it. -/
theorem beforeOf_exchange_ran (i : Instr) (s : State) (c : Command) (hl : c.staged.length ≤ 8) :
    Ran s ((beforeOf i s).exchange c) (padded c.staged) c.settle c.resp := by
  obtain ⟨htrace, hbuf, hlines, hsr, hbit, hbyte, hphase, hfault, hdraws, hret, hparams, hcalls⟩ :=
    State.exchange_ran c (beforeOf i s) hl
  rw [beforeOf_frame] at *
  exact ⟨htrace, hbuf, hlines, hsr, hbit, hbyte, hphase, hfault, hdraws, hret, hparams, hcalls⟩

/-- What `completes_of` says, for the two commands that write MODE or PWR before they stage too. -/
theorem exec_ran_of (i : Instr) (s : State) (c : Command) (us : Nat) (r : Resp) (payload : List Byte)
    (he : exec i s = runCommand c (beforeOf i) s) (hf : s.fault = 0) (ha : s.admission c = none)
    (hl : c.staged.length ≤ 8) (hp : padded c.staged = payload) (hu : c.settle = us) (hr : c.resp = r) :
    ∃ t, exec i s = .next t ∧ Ran s t payload us r ∧ t.mode = (beforeOf i s).mode ∧
      t.pwr = (beforeOf i s).pwr := by
  rw [← hp, ← hu, ← hr]
  exact ⟨_, he.trans (runCommand_admitted c (beforeOf i) s hf ha), beforeOf_exchange_ran i s c hl,
    State.exchange_mode c _ hl, State.exchange_pwr c _ hl⟩

/-- Settles O9: POWER_UP has written MODE and PWR before it stages, and reads by the nibble it recorded. -/
theorem powerUpRecordsTheLowNibbleAndReadsByIt : Obligations.PowerUpRecordsTheLowNibbleAndReadsByIt := by
  intro setup audioOut s h hs ha
  have hfits : (fitsU8 setup && fitsU8 audioOut) = true := by rw [fitsU8_of_lt hs, fitsU8_of_lt ha]; rfl
  have hresp : (if funcOf setup = qlidFunc then Resp.long else .short) =
      if setup % 16 = 15 then .long else .short := by simp only [funcOf_qlid]
  rw [← funcOf_eq]
  exact exec_ran_of (.powerUp setup audioOut) s _ _ _ _ rfl h (State.admission_anyMode s _ hfits rfl rfl)
    (Nat.le_of_ble_eq_true rfl) rfl rfl hresp

/-- Settles O10: POWER_DOWN has written PWR alone before it stages. -/
theorem powerDownClearsThePowerRecordAlone : Obligations.PowerDownClearsThePowerRecordAlone := fun s h =>
  exec_ran_of .powerDown s ⟨true, none, true, [0x11], settleBase, .short⟩ _ _ _ rfl h rfl
    (Nat.le_of_ble_eq_true rfl) rfl rfl rfl

/-- Settles O11: GET_REV passes admission in every MODE and stages its opcode alone. -/
theorem getRevReadsALongResponse : Obligations.GetRevReadsALongResponse := fun s h =>
  completes_of .getRev s ⟨true, none, true, [0x10], settleBase, .long⟩ _ _ _ rfl h rfl
    (Nat.le_of_ble_eq_true rfl) rfl rfl rfl

/-- Settles O14: GET_INT_STATUS passes admission in every MODE and stages its opcode alone. -/
theorem getIntStatusRefreshesTheStatusByte : Obligations.GetIntStatusRefreshesTheStatusByte := fun s h =>
  completes_of .getIntStatus s ⟨true, none, true, [0x14], settleBase, .short⟩ _ _ _ rfl h rfl
    (Nat.le_of_ble_eq_true rfl) rfl rfl rfl

/-- Settles O12: both words are staged by `hi` and `lo`, the high and low byte of a 16-bit number. -/
theorem setPropertySendsBothWordsBigEndian : Obligations.SetPropertySendsBothWordsBigEndian := by
  intro prop value s h hp hv
  have hfits : (fitsU16 prop && fitsU16 value) = true := by rw [fitsU16_of_lt hp, fitsU16_of_lt hv]; rfl
  simp only [← hi_toU16, ← lo_toU16]
  exact completes_of _ s _ _ _ _ rfl h (State.admission_anyMode s _ hfits rfl rfl) (Nat.le_of_ble_eq_true rfl)
    rfl rfl rfl

/-- Settles O13: the id is staged by `hi` and `lo`. -/
theorem getPropertySendsTheIdBigEndian : Obligations.GetPropertySendsTheIdBigEndian := by
  intro prop s h hp
  rw [← hi_toU16, ← lo_toU16]
  exact completes_of _ s _ _ _ _ rfl h (State.admission_anyMode s _ (fitsU16_of_lt hp) rfl rfl)
    (Nat.le_of_ble_eq_true rfl) rfl rfl rfl

/-- Settles O20: FM_RDS_STATUS needs no band. -/
theorem fmRdsStatusRunsInEveryMode : Obligations.FmRdsStatusRunsInEveryMode := fun _ s h ha =>
  completes_of _ s _ _ _ _ rfl h (State.admission_anyMode s _ (fitsU8_of_lt ha) rfl rfl)
    (Nat.le_of_ble_eq_true rfl) rfl rfl rfl

/-- Settles O23: neither needs a band. -/
theorem gpioCommandsRunInEveryMode : Obligations.GpioCommandsRunInEveryMode := by
  intro arg1 s h ha
  constructor <;>
    exact completes_of _ s _ _ _ _ rfl h (State.admission_anyMode s _ (fitsU8_of_lt ha) rfl rfl)
      (Nat.le_of_ble_eq_true rfl) rfl rfl rfl

/-! ### Commands that MODE admits -/

theorem antcapAllowed_of {p : Params} {antcap : Nat} (h : antcap ≤ 255 ∨ p.fmAntcapPolicy = .truncate) :
    antcapAllowed p antcap = true := by
  rcases h with h | h <;> simp [antcapAllowed, h]

/-- Settles O15: in FM the antcap's one byte passes the policy, and `a8` is its low byte. -/
theorem fmTuneFreqSendsOneAntcapByte : Obligations.FmTuneFreqSendsOneAntcapByte := by
  intro setup freq antcap s h hm hs hf ha hk
  have hfits : (fitsU8 setup && fitsU16 freq && fitsU16 antcap) = true := by
    rw [fitsU8_of_lt hs, fitsU16_of_lt hf, fitsU16_of_lt ha]; rfl
  rw [← a8_eq, ← hi_toU16, ← lo_toU16]
  exact completes_of _ s _ _ _ _ rfl h
    (State.admission_band s _ .fm hfits rfl (band_fm s hm) (antcapAllowed_of hk)) (Nat.le_of_ble_eq_true rfl)
    rfl rfl rfl

/-- Settles O16: `amSetup` is setup mod 2. -/
theorem amTuneFreqMasksSetupAndSendsTwoAntcapBytes :
    Obligations.AmTuneFreqMasksSetupAndSendsTwoAntcapBytes := by
  intro setup freq antcap s h hm hs hf ha
  have hfits : (fitsU8 setup && fitsU16 freq && fitsU16 antcap) = true := by
    rw [fitsU8_of_lt hs, fitsU16_of_lt hf, fitsU16_of_lt ha]; rfl
  simp only [← amSetup_eq, ← hi_toU16, ← lo_toU16]
  exact completes_of _ s _ _ _ _ rfl h (State.admission_band s _ .am hfits rfl (band_am s hm) rfl)
    (Nat.le_of_ble_eq_true rfl) rfl rfl rfl

/-- Settles O17: the layout decides the staged bytes and whether antcap is asked about. -/
theorem fmSeekStartFollowsItsLayout : Obligations.FmSeekStartFollowsItsLayout := by
  intro arg1 antcap s h hm h1 ha
  have hfits : (fitsU8 arg1 && fitsU16 antcap) = true := by rw [fitsU8_of_lt h1, fitsU16_of_lt ha]; rfl
  rw [← a8_eq]
  constructor
  · intro hl hk
    refine completes_of _ s _ _ _ _ rfl h (State.admission_band s _ .fm hfits rfl (band_fm s hm) ?_)
      ?_ ?_ rfl rfl
    · rw [antcapAllowed_of hk, Bool.or_true]
    · simp [hl]
    · simp only [hl]; rfl
  · intro hl
    refine completes_of _ s _ _ _ _ rfl h (State.admission_band s _ .fm hfits rfl (band_fm s hm) ?_)
      ?_ ?_ rfl rfl
    · rw [hl]; rfl
    · simp [hl]
    · simp only [hl]; rfl

/-- Settles O18: the antcap goes as `hi` and `lo`, and no policy asks about it. -/
theorem amSeekStartSendsTwoAntcapBytes : Obligations.AmSeekStartSendsTwoAntcapBytes := by
  intro arg1 antcap s h hm h1 ha
  have hfits : (fitsU8 arg1 && fitsU16 antcap) = true := by rw [fitsU8_of_lt h1, fitsU16_of_lt ha]; rfl
  rw [← hi_toU16, ← lo_toU16]
  exact completes_of _ s _ _ _ _ rfl h (State.admission_band s _ .am hfits rfl (band_am s hm) rfl)
    (Nat.le_of_ble_eq_true rfl) rfl rfl rfl

/-- Settles O19: each variant passes admission in its own band. -/
theorem tuneAndRsqStatusReadALongResponse : Obligations.TuneAndRsqStatusReadALongResponse := by
  intro arg1 s h h1
  have hfits : fitsU8 arg1 = true := fitsU8_of_lt h1
  refine ⟨fun hm => ?_, fun hm => ?_⟩
  · constructor <;>
      exact completes_of _ s _ _ _ _ rfl h (State.admission_band s _ .fm hfits rfl (band_fm s hm) rfl)
        (Nat.le_of_ble_eq_true rfl) rfl rfl rfl
  · constructor <;>
      exact completes_of _ s _ _ _ _ rfl h (State.admission_band s _ .am hfits rfl (band_am s hm) rfl)
        (Nat.le_of_ble_eq_true rfl) rfl rfl rfl

/-- Settles O21: each variant passes admission in its own band. -/
theorem agcStatusReadsALongResponse : Obligations.AgcStatusReadsALongResponse := fun s h =>
  ⟨fun hm => completes_of _ s _ _ _ _ rfl h (State.admission_band s _ .fm rfl rfl (band_fm s hm) rfl)
      (Nat.le_of_ble_eq_true rfl) rfl rfl rfl,
    fun hm => completes_of _ s _ _ _ _ rfl h (State.admission_band s _ .am rfl rfl (band_am s hm) rfl)
      (Nat.le_of_ble_eq_true rfl) rfl rfl rfl⟩

/-- Settles O22: each variant passes admission in its own band and stages its operands as they are. -/
theorem agcOverrideSendsBothArguments : Obligations.AgcOverrideSendsBothArguments := by
  intro rfAgcDis lnaGain s h hr hg
  have hfits : (fitsU8 rfAgcDis && fitsU8 lnaGain) = true := by rw [fitsU8_of_lt hr, fitsU8_of_lt hg]; rfl
  exact ⟨fun hm => completes_of _ s _ _ _ _ rfl h (State.admission_band s _ .fm hfits rfl (band_fm s hm) rfl)
      (Nat.le_of_ble_eq_true rfl) rfl rfl rfl,
    fun hm => completes_of _ s _ _ _ _ rfl h (State.admission_band s _ .am hfits rfl (band_am s hm) rfl)
      (Nat.le_of_ble_eq_true rfl) rfl rfl rfl⟩

end Sys2Proof.Machine
end

section
/-! PROOFS. What the accessors read, which faults a command raises, and what PWR decides (43_response_view.md R133 to R145; 60_exceptions.md R150, R151, R154; 10_state.md R24). -/

namespace Sys2Proof.Machine

open Safety

/-! ### Bit fields and MODE in the accessors -/

/-- Settles O25: the five bits are those of the byte's number. -/
theorem flagAccessorsReturnStatusBits : Obligations.FlagAccessorsReturnStatusBits := fun s h =>
  ⟨runMicro_ok _ s h, runMicro_ok _ s h, runMicro_ok _ s h, runMicro_ok _ s h, runMicro_ok _ s h⟩

theorem stereoBit_eq (b : Byte) : stereoBit b = decide (128 ≤ b.toNat) := BitVec.msb_eq_decide b

theorem blendField_toNat (b : Byte) : (blendField b).toNat = b.toNat % 128 := by
  simp only [blendField, BitVec.extractLsb'_toNat, Nat.shiftRight_zero]

/-- Settles O28: bit 7 is set from 128 on, and the low seven bits are the rest. -/
theorem stereoAccessorsSplitByteThree : Obligations.StereoAccessorsSplitByteThree := by
  intro s h
  rw [← stereoBit_eq]
  exact ⟨runMicro_ok _ s h, _, runMicro_ok _ s h, blendField_toNat _⟩

theorem raise_of_zero {s : State} (h : s.fault = 0) (k : FaultBit) :
    s.raise k = { s with fault := k.mask } := by
  rw [← raise_fault_of_zero h]
  rfl

/-- The answer of `antcap`, by the band MODE selects. -/
theorem exec_antcap_of_band {s : State} (h : s.fault = 0) :
    (s.band = some .fm → exec .antcap s = .next (s.give (.u16 (zext16 (s.readBuf 7))))) ∧
    (s.band = some .am → exec .antcap s = .next (s.give (.u16 (be16 (s.readBuf 6) (s.readBuf 7))))) ∧
    (s.band = none → exec .antcap s = .next { s with fault := 1 }) := by
  rw [show exec .antcap s = execAntcap s from rfl, execAntcap, State.guarded_ok s _ h]
  refine ⟨fun hb => by rw [hb], fun hb => by rw [hb], fun hb => ?_⟩
  rw [hb]
  exact congrArg _ (raise_of_zero h _)

/-- Settles O27: `antcap` asks which band MODE selects. -/
theorem antcapWidthFollowsMode : Obligations.AntcapWidthFollowsMode := by
  intro s h
  obtain ⟨hfm, ham, hnone⟩ := exec_antcap_of_band h
  exact ⟨fun hm => ⟨_, hfm (band_fm s hm), zext16_toNat _⟩, fun hm => ⟨_, ham (band_am s hm), be16_toNat _ _⟩,
    fun hm => hnone (band_none s hm)⟩

/-! ### What an accessor's answer depends on -/

/-- Every accessor but `antcap` hands back a value of the bytes of BUF. -/
theorem exec_accessor (i : Instr) (hi : isAccessor i = true) (ha : i ≠ .antcap) :
    ∃ v : (Offset → Byte) → Value, ∀ s, exec i s = runMicro (fun t => t.give (v t.readBuf)) s := by
  simp only [isAccessor, List.mem_cons, List.not_mem_nil, or_false, decide_eq_true_eq] at hi
  rcases hi with rfl | rfl | rfl | rfl | rfl | rfl | rfl | rfl | rfl | rfl | rfl | rfl | rfl
  · exact ⟨fun m => .u8 (m 0), fun _ => rfl⟩
  · exact ⟨fun m => .flag (ctsBit (m 0)), fun _ => rfl⟩
  · exact ⟨fun m => .flag (errBit (m 0)), fun _ => rfl⟩
  · exact ⟨fun m => .flag (rsqIntBit (m 0)), fun _ => rfl⟩
  · exact ⟨fun m => .flag (rdsIntBit (m 0)), fun _ => rfl⟩
  · exact ⟨fun m => .flag (stcIntBit (m 0)), fun _ => rfl⟩
  · exact ⟨fun m => .u16 (be16 (m 2) (m 3)), fun _ => rfl⟩
  · exact ⟨fun m => .u8 (m 4), fun _ => rfl⟩
  · exact ⟨fun m => .u8 (m 5), fun _ => rfl⟩
  · exact absurd rfl ha
  · exact ⟨fun m => .flag (stereoBit (m 3)), fun _ => rfl⟩
  · exact ⟨fun m => .u7 (blendField (m 3)), fun _ => rfl⟩
  · exact ⟨fun m => .s16 (sext16 (m 7)), fun _ => rfl⟩

theorem band_congr {s s' : State} (hm : s.mode = s'.mode) (hp : s.params = s'.params) : s.band = s'.band := by
  rw [State.band, State.band, hm, hp]

/-- Settles O30: `antcap` reads the band and BUF, every other accessor BUF alone. -/
theorem accessorsReadOnlyBufAndMode : Obligations.AccessorsReadOnlyBufAndMode := by
  intro i s s' hi h h' hbuf hmode
  have hread : s.readBuf = s'.readBuf := funext hbuf
  by_cases ha : i = .antcap
  · subst ha
    obtain ⟨hm, hp⟩ := hmode rfl
    obtain ⟨hfm, ham, hnone⟩ := exec_antcap_of_band h
    obtain ⟨hfm', ham', hnone'⟩ := exec_antcap_of_band h'
    rw [← band_congr hm hp, ← hread] at hfm' ham'
    rw [← band_congr hm hp] at hnone'
    rcases hb : s.band with _ | _ | _
    · exact .inr ⟨rfl, hnone hb, hnone' hb⟩
    · exact .inl ⟨_, hfm hb, hfm' hb⟩
    · exact .inl ⟨_, ham hb, ham' hb⟩
  · obtain ⟨v, he⟩ := exec_accessor i hi ha
    refine .inl ⟨v s.readBuf, (he s).trans (runMicro_ok _ s h), ?_⟩
    rw [he s', runMicro_ok _ s' h', hread]
    rfl

/-! ### The faults of admission (60_exceptions.md R154) -/

theorem isCommand_of_neededBand {i : Instr} {b : Band} (h : neededBand i = some b) : i.isCommand = true := by
  cases i <;> simp_all [neededBand, Instr.isCommand]

theorem isCommand_of_not_wellFormed {i : Instr} (h : i.wellFormed = false) : i.isCommand = true := by
  cases i <;> simp_all [Instr.wellFormed, Instr.isCommand]

/-- A command whose admission raises a fault changes FAULT alone. -/
theorem exec_raises {i : Instr} {s : State} {c : Command} {before : State → State} {k : FaultBit}
    (he : exec i s = runCommand c before s) (h : s.fault = 0) (ha : s.admission c = some k) :
    exec i s = .next { s with fault := k.mask } := by
  rw [he, runCommand_raises c before s h k ha, raise_of_zero h]

/-- Settles O31: with operands that fit, admission asks for the band next. -/
theorem modeDependentCommandsFaultOutsideFmAndAm : Obligations.ModeDependentCommandsFaultOutsideFmAndAm := by
  intro i s h hm hb hw
  obtain ⟨b, hb⟩ := Option.isSome_iff_exists.mp hb
  obtain ⟨c, -, -, hfits, hband, he⟩ := exec_command i (isCommand_of_neededBand hb) s
  exact exec_raises he h (admission_noBand s c b (hfits.trans hw) (hband.trans hb) (band_none s hm))

/-- Settles O32: admission asks for the widths before anything else. -/
theorem operandsTooWideAreRefusedFirst : Obligations.OperandsTooWideAreRefusedFirst := by
  intro i s h hw
  obtain ⟨c, -, -, hfits, -, he⟩ := exec_command i (isCommand_of_not_wellFormed hw) s
  exact exec_raises he h (admission_unfit s c (hfits.trans hw))

/-- A variant that needs one band is refused in the other. -/
theorem exec_otherBand {i : Instr} {s : State} {b m : Band} (h : s.fault = 0) (hw : i.wellFormed = true)
    (hb : neededBand i = some b) (hs : s.band = some m) (hne : m ≠ b) :
    exec i s = .next { s with fault := 2 } := by
  obtain ⟨c, -, -, hfits, hband, he⟩ := exec_command i (isCommand_of_neededBand hb) s
  exact exec_raises he h (admission_otherBand s c b m (hfits.trans hw) (hband.trans hb) hs hne)

/-- Settles O33: with operands that fit, admission refuses a variant of the band MODE does not select. -/
theorem variantsAgainstModeAreRefused : Obligations.VariantsAgainstModeAreRefused := fun _ s h hw =>
  ⟨fun hb hm => exec_otherBand h hw hb (band_am s hm) (by decide),
    fun hb hm _ => exec_otherBand h hw hb (band_fm s hm) (by decide)⟩

theorem antcapAllowed_eq_false {p : Params} {antcap : Nat} (h : 255 < antcap)
    (hp : p.fmAntcapPolicy = .refuse) :
    antcapAllowed p antcap = false := by
  simp [antcapAllowed, hp, h]

/-- Settles O34: in FM the last thing admission asks for is the antcap's one byte. -/
theorem fmAntcapAboveOneByteIsRefused : Obligations.FmAntcapAboveOneByteIsRefused := by
  intro setup freq antcap s h hm hs hf hbig ha hp
  have hno : antcapAllowed s.params antcap = false := antcapAllowed_eq_false hbig hp
  have hfits : (fitsU8 setup && fitsU16 freq && fitsU16 antcap) = true := by
    rw [fitsU8_of_lt hs, fitsU16_of_lt hf, fitsU16_of_lt ha]; rfl
  have hfits' : (fitsU8 setup && fitsU16 antcap) = true := by rw [fitsU8_of_lt hs, fitsU16_of_lt ha]; rfl
  refine ⟨exec_raises rfl h (admission_antcap s _ .fm hfits rfl (band_fm s hm) hno), fun hl => ?_⟩
  exact exec_raises rfl h (admission_antcap s _ .fm hfits' rfl (band_fm s hm) (by rw [hl, hno]; rfl))

/-! ### PWR (10_state.md R24, 42_commands.md R126) -/

theorem admission_congr {s s' : State} (hm : s.mode = s'.mode) (hp : s.params = s'.params) (c : Command) :
    s.admission c = s'.admission c := by
  rw [State.admission, State.admission, band_congr hm hp]

theorem exec_of_not_stuck (i : Instr) {s : State} (h : s.fault = 0) : ∃ t, exec i s = .next t := by
  by_cases hc : i.isCommand = true
  · obtain ⟨c, -, -, -, -, he⟩ := exec_command i hc s
    rcases runCommand_cases c (beforeOf i) s with ⟨hn, -⟩ | ⟨-, k, -, e⟩ | ⟨-, -, e⟩
    · exact absurd h hn
    · exact ⟨_, he.trans e⟩
    · exact ⟨_, he.trans e⟩
  · by_cases ha : i = .antcap
    · subst ha
      obtain ⟨hfm, ham, hnone⟩ := exec_antcap_of_band h
      rcases hb : s.band with _ | _ | _
      · exact ⟨_, hnone hb⟩
      · exact ⟨_, hfm hb⟩
      · exact ⟨_, ham hb⟩
    · obtain ⟨op, he, -⟩ := exec_micro i (by simpa using hc) ha
      exact ⟨_, (he s).trans (runMicro_ok op s h)⟩

theorem fault_of_exec_fault {i : Instr} {s : State} {f : Fault} (h : exec i s = .fault f) : s.fault ≠ 0 := by
  intro h0
  obtain ⟨t, ht⟩ := exec_of_not_stuck i h0
  rw [ht] at h
  cases h

/-- PWR replaced in the state before, and put back in the state after. -/
def SameButPwr (i : Instr) (s : State) (w : Power) : Prop :=
  ∀ t, exec i s = .next t → ∃ t', exec i { s with pwr := w } = .next t' ∧ { t' with pwr := t.pwr } = t

/-- The second part of EXEC reads no PWR. -/
theorem beforeOf_withPwr (i : Instr) (s : State) (w w' : Power) :
    { beforeOf i { s with pwr := w } with pwr := w' } = { beforeOf i s with pwr := w' } := by
  cases i <;> rfl

theorem exchange_withPwr (c : Command) (s : State) (w : Power) (h : c.staged.length ≤ 8) :
    { s with pwr := w }.exchange c = { s.exchange c with pwr := w } := by
  rw [State.exchange_eq c s h, State.exchange_eq c _ h]

theorem sameButPwr_command (i : Instr) (s : State) (w : Power) (hc : i.isCommand = true) :
    SameButPwr i s w := by
  intro t h
  obtain ⟨c, hl, -, he⟩ := exec_command_of_params i hc s.params
  rw [he s rfl] at h
  rcases runCommand_cases c (beforeOf i) s with ⟨-, e⟩ | ⟨hf, k, hk, e⟩ | ⟨hf, ha, e⟩ <;> rw [e] at h <;>
    cases h
  · have hraise := runCommand_raises c (beforeOf i) { s with pwr := w } hf k hk
    exact ⟨_, (he { s with pwr := w } rfl).trans hraise, rfl⟩
  · refine ⟨_, (he { s with pwr := w } rfl).trans (runCommand_admitted c _ _ hf ha), ?_⟩
    have hs := beforeOf_withPwr i s w (beforeOf i s).pwr
    rw [State.exchange_pwr c _ hl, ← exchange_withPwr c _ _ hl, hs]

theorem sameButPwr_accessor (i : Instr) (s : State) (w : Power) (hi : isAccessor i = true) :
    SameButPwr i s w := by
  intro t h
  obtain ⟨hf, -⟩ := exec_next i s t h
  rcases accessorsReadOnlyBufAndMode i s { s with pwr := w } hi hf hf (fun _ => rfl)
    (fun _ => ⟨rfl, rfl⟩) with ⟨v, e, e'⟩ | ⟨-, e, e'⟩
  · rw [e] at h
    cases h
    exact ⟨_, e', rfl⟩
  · rw [e] at h
    cases h
    exact ⟨_, e', rfl⟩

theorem sameButPwr_micro (i : Instr) (s : State) (w : Power) (hc : i.isCommand = false)
    (hi : isAccessor i = false) : SameButPwr i s w := by
  intro t h
  obtain ⟨hf, -⟩ := exec_next i s t h
  obtain ⟨op, he, hop⟩ := exec_micro i hc (by rintro rfl; cases hi)
  rw [he s, runMicro_ok op s hf] at h
  cases h
  refine ⟨op { s with pwr := w }, (he _).trans (runMicro_ok op _ hf), ?_⟩
  rcases hop with ⟨-, rfl⟩ | ⟨-, rfl⟩ | ⟨-, rfl⟩ | ⟨b, -, rfl⟩ | ⟨-, rfl⟩ | ⟨ha, -⟩
  · rw [State.writeTxn_eq, State.writeTxn_eq]; rfl
  · rw [State.shortReadTxn_eq, State.shortReadTxn_eq]
  · rw [State.longReadTxn_eq, State.longReadTxn_eq]
  · rw [State.sendByte_eq, State.sendByte_eq]
  · simp only [State.recvByte_eq]; rfl
  · rw [hi] at ha; cases ha

/-- Settles O60: no operation an instruction is made of reads PWR. -/
theorem powerRecordAffectsNothing : Obligations.PowerRecordAffectsNothing := by
  intro i s w
  refine ⟨?_, fun f h => ?_⟩
  · cases hc : i.isCommand
    · cases hi : isAccessor i
      · exact sameButPwr_micro i s w hc hi
      · exact sameButPwr_accessor i s w hi
    · exact sameButPwr_command i s w hc
  · cases f
    exact exec_stuck i { s with pwr := w } (fault_of_exec_fault (s := s) h)

end Sys2Proof.Machine
end

section
/-! PROOFS. What a command puts on the wire, how long it takes, and the waveform of a trace (30_encoding.md R63, 42_commands.md R124, R125, 70_reset_and_hazards.md R179, 40_transport.md R88). -/

namespace Sys2Proof.Safety

open Machine

/-! ### The bits of a command on the wire -/

theorem wireBits_bracket (l : Lines) (ctrl : Byte) (body : List Event) :
    wireBits l (bracket ctrl body) = byteBits ctrl ++ wireBits (sending (ctrl.getLsbD 0)) body := by
  have hopen : wireBits l ([.dir .output, .en .asserted] ++ sendEvents ctrl) = byteBits ctrl := rfl
  have hclose : ∀ l', wireBits l' [.en .released] = [] := fun _ => rfl
  rw [bracket, wireBits_append, wireBits_append, hopen, replay_open, hclose, List.append_nil]

/-- The control byte of the receive transaction (30_encoding.md R59). -/
def readCtrl : Resp → Byte
  | .short => 0x80
  | .long => 0xC0

theorem readCtrl_cases (r : Resp) : readCtrl r = 0x80 ∨ readCtrl r = 0xC0 := by
  cases r
  · exact .inl rfl
  · exact .inr rfl

theorem wireBits_readEvents (l : Lines) (r : Resp) (n : Nat) :
    wireBits l (readEvents r n) = byteBits (readCtrl r) := by
  cases r
  · rw [readEvents, shortReadEvents, wireBits_bracket, wireBits_recvEvents, List.append_nil]; rfl
  · rw [readEvents, longReadEvents, wireBits_bracket, wireBits_recvs, List.append_nil]; rfl

theorem wireBits_commandEvents (l : Lines) (payload : List Byte) (us : Nat) (r : Resp) (n : Nat) :
    wireBits l (commandEvents payload us r n) = ([0x48] ++ payload ++ [readCtrl r]).flatMap byteBits := by
  have hsettle : ∀ l', wireBits l' [.settle us] = [] := fun _ => rfl
  rw [commandEvents, wireBits_append, wireBits_append, wireBits_readEvents, hsettle, List.append_nil,
    writeEvents, wireBits_bracket, wireBits_sends]
  simp

/-! ### The time of a command -/

theorem traceTime_bracket (tm : BitTiming) (l : Lines) (ctrl : Byte) (body : List Event) :
    traceTime tm l (bracket ctrl body) =
      tm.tEnLead + 8 * tm.sendCell + traceTime tm (sending (ctrl.getLsbD 0)) body + tm.tEnLag := by
  rw [bracket, traceTime_append, traceTime_append, traceTime_append, replay_open, traceTime_sendEvents]
  simp only [traceTime, eventTime]
  omega

theorem traceTime_readEvents (tm : BitTiming) (l : Lines) (r : Resp) (n : Nat) :
    traceTime tm l (readEvents r n) =
      tm.tEnLead + 8 * tm.sendCell + tm.tTurn + r.bits * tm.recvCell + tm.tEnLag := by
  cases r
  · rw [readEvents, shortReadEvents, traceTime_bracket, traceTime_recvEvents]
    simp [sending, Resp.bits, Nat.add_assoc]
  · have h0 : traceTime tm (sending ((0xC0 : Byte).getLsbD 0)) (recvEvents (n + 8 * 0)) =
        tm.tTurn + 8 * tm.recvCell := traceTime_recvEvents tm _ _
    rw [readEvents, longReadEvents, traceTime_bracket, range_sixteen, List.flatMap_cons, traceTime_append, h0,
      replay_recvEvents, traceTime_recvs tm _ n _ rfl]
    simp only [Resp.bits, List.length_map, List.length_range]
    omega

theorem traceTime_commandEvents (tm : BitTiming) (l : Lines) (payload : List Byte) (us : Nat) (r : Resp)
    (n : Nat) (h : payload.length = 8) :
    traceTime tm l (commandEvents payload us r n) = minCommandTime tm r us := by
  rw [commandEvents, traceTime_append, traceTime_append, traceTime_readEvents, writeEvents, traceTime_bracket,
    traceTime_sends, h]
  simp only [traceTime, eventTime, minCommandTime]
  omega

/-! ### Waveforms -/

theorem after_of_not_inWaveform {l : Lines} {e : Event} (h : inWaveform l e = false) : l.after e = l := by
  cases e
  case settle us => rfl
  all_goals exact of_not_not (of_decide_eq_false h)

theorem inWaveform_iff (m : Lines) (e : Event) :
    inWaveform m e = true ↔ (∃ us, e = .settle us) ∨ m.after e ≠ m := by
  cases e <;> simp [inWaveform]

theorem waveform_append (l : Lines) (a b : List Event) :
    waveform l (a ++ b) = waveform l a ++ waveform (l.replay a) b := by
  induction a generalizing l with
  | nil => rfl
  | cons e a ih => rw [List.cons_append, waveform_cons, waveform_cons, ih, replay_cons, List.append_assoc]

theorem waveform_sublist (l : Lines) (tr : List Event) : (waveform l tr).Sublist tr := by
  induction tr generalizing l with
  | nil => exact List.Sublist.slnil
  | cons e tr ih =>
    rw [waveform_cons]
    split
    · exact (ih _).cons_cons e
    · exact (ih _).cons e

theorem replay_waveform (l : Lines) (tr : List Event) : l.replay (waveform l tr) = l.replay tr := by
  induction tr generalizing l with
  | nil => rfl
  | cons e tr ih =>
    rw [waveform_cons, replay_append, replay_cons]
    cases he : inWaveform l e with
    | true => exact ih _
    | false => rw [after_of_not_inWaveform he]; exact ih _

theorem sample_not_mem_waveform (l : Lines) (tr : List Event) (b : Bit) : Event.sample b ∉ waveform l tr := by
  induction tr generalizing l with
  | nil => exact List.not_mem_nil
  | cons e tr ih =>
    rw [waveform_cons, List.mem_append]
    rintro (h | h)
    · split at h
      · rename_i he
        obtain rfl := List.mem_singleton.mp h
        simp [inWaveform, Lines.after] at he
      · cases h
    · exact ih _ h

theorem waveform_waveform (l : Lines) (tr : List Event) : waveform l (waveform l tr) = waveform l tr := by
  induction tr generalizing l with
  | nil => rfl
  | cons e tr ih =>
    rw [waveform_cons l e tr]
    cases he : inWaveform l e with
    | true =>
      simp only [if_true, List.cons_append, List.nil_append]
      rw [waveform_cons, he, ih]
      rfl
    | false =>
      rw [after_of_not_inWaveform he]
      exact ih l

/-- Settles O50: the waveform goes through the trace event by event, and an event that does not belong to it
changes no level. -/
theorem waveformsRepeatNoLevel : Obligations.WaveformsRepeatNoLevel := by
  refine fun l tr => ⟨waveform_sublist l tr, rfl, fun e => ?_, inWaveform_iff, replay_waveform l tr,
    sample_not_mem_waveform l tr, waveform_waveform l tr⟩
  rw [waveform_append, waveform_cons]
  exact congrArg _ (List.append_nil _)

end Sys2Proof.Safety

namespace Sys2Proof.Machine

open Safety

/-! ### The commands -/

/-- The encoding of a command is one of the 21 opcodes and seven more bytes (30_encoding.md R65). -/
theorem encode_command (p : Params) (i : Instr) (hc : i.isCommand = true) :
    ∃ op args, encode p i = op :: args ∧ op ∈ opcodes ∧ args.length = 7 := by
  cases i
  case fmSeekStart => cases hl : p.seekFmLayout <;> simp [encode, hl, padded, opcodes]
  all_goals simp_all [encode, padded, opcodes, Instr.isCommand]

theorem encode_command_length {p : Params} {i : Instr} (hc : i.isCommand = true) : (encode p i).length = 8 := by
  obtain ⟨op, args, he, -, hlen⟩ := encode_command p i hc
  rw [he, List.length_cons, hlen]

/-- Settles O47: a command's events carry its encoding, and no other step but a reset appends an event. -/
theorem theWireCarriesTheEncodedCommand : Obligations.TheWireCarriesTheEncodedCommand := by
  constructor
  · intro i s t hc h ht
    obtain ⟨c, -, -, -, -, -, htr⟩ := command_ran i s t hc h ht
    exact ⟨_, htr, _, readCtrl_cases c.resp, wireBits_commandEvents _ _ _ _ _⟩
  · intro s t hst hr
    rcases step_next s t hst with
      ⟨-, -, rfl⟩ | ⟨rest, hcalls, rfl⟩ | ⟨r, rest, i, -, -, hq, he⟩ | ⟨r, rest, -, -, -, rfl⟩
    · exact .inl rfl
    · exact absurd (by rw [hcalls]; rfl) hr
    · rcases exec_next_requestable i _ t hq he with ⟨k, rfl⟩ | ⟨c, hc, hl, hp, rfl⟩ | ⟨-, v, rfl⟩
      · exact .inl rfl
      · obtain ⟨op, args, henc, hop, hargs⟩ := encode_command (s.accept rest).params i hc
        have htr := (beforeOf_exchange_ran i (s.accept rest) c hl).trace
        rw [hp, henc] at htr
        exact .inr ⟨_, op, args, _, htr, hop, hargs, readCtrl_cases c.resp, wireBits_commandEvents _ _ _ _ _⟩
      · exact .inl rfl
    · exact .inl rfl

/-- Settles O48: the lengths and pulses of the two brackets and the settle of `command_ran`. -/
theorem commandsEmitOneOfTwoTraceLengths : Obligations.CommandsEmitOneOfTwoTraceLengths := by
  intro i s t hc h ht
  obtain ⟨c, -, -, -, -, -, htr⟩ := command_ran i s t hc h ht
  refine ⟨_, htr, ?_⟩
  rw [commandEvents_length _ _ _ _ (encode_command_length hc),
    commandEvents_pulses _ _ _ _ (encode_command_length hc)]
  cases c.resp
  · exact .inl ⟨rfl, rfl⟩
  · exact .inr ⟨rfl, rfl⟩

/-- Settles O49: the time of a command's events is the bound of R179, written out for each receive shape. -/
theorem commandTimeHasItsLowerBound : Obligations.CommandTimeHasItsLowerBound := by
  intro tm i s t hc h ht
  obtain ⟨c, -, -, -, -, -, htr⟩ := command_ran i s t hc h ht
  refine ⟨_, c.settle, c.resp, htr, by simp [commandEvents],
    commandEvents_length _ _ _ _ (encode_command_length hc), ?_⟩
  · rw [traceTime_commandEvents _ _ _ _ _ _ (encode_command_length hc)]
    cases c.resp <;> simp only [minCommandTime, BitTiming.sendCell, BitTiming.recvCell, Resp.bits] <;> omega

/-! ### Two runs of one command -/

theorem beforeOf_mode_congr (i : Instr) {s s' : State} (h : s.mode = s'.mode) :
    (beforeOf i s).mode = (beforeOf i s').mode := by
  cases i
  case powerUp => rfl
  all_goals exact h

/-- Where the byte left in BUF does not depend on what BUF held: the payload, and all of a long response. -/
theorem bufAfter_congr {s s' : State} (hd : s.draws = s'.draws) (payload : List Byte) (r : Resp) (k : Offset)
    (h : k.val < 8 ∨ r = .long) : bufAfter s payload r k = bufAfter s' payload r k := by
  cases r with
  | long => simp only [bufAfter, hd]
  | short =>
    have hk : k.val < 8 := h.resolve_right (by simp)
    simp only [bufAfter, hd, hk, if_true]

theorem resp_long_of_length {payload : List Byte} {us : Nat} {r : Resp} {n : Nat} (hp : payload.length = 8)
    (h : (commandEvents payload us r n).length = 647) : r = .long := by
  rw [commandEvents_length _ _ _ _ hp] at h
  cases r with
  | long => rfl
  | short => simp at h

/-- Settles O59: both runs stage the same bytes and draw the same bits. -/
theorem noEarlierResponseAffectsACommand : Obligations.NoEarlierResponseAffectsACommand := by
  intro i s s' t hc hf' hm hp hd h ht
  obtain ⟨c, hl, -, he⟩ := exec_command_of_params i hc s.params
  rw [he s rfl] at h
  rcases runCommand_cases c (beforeOf i) s with ⟨-, e⟩ | ⟨hf, k, -, e⟩ | ⟨hf, ha, e⟩ <;> rw [e] at h <;> cases h
  · exact absurd ht (raise_fault_ne k s hf)
  · have hrun := runCommand_admitted c (beforeOf i) s' hf' ((admission_congr hm hp c).symm.trans ha)
    have hran := beforeOf_exchange_ran i s c hl
    have hran' := beforeOf_exchange_ran i s' c hl
    have htr' := hran'.trace
    rw [← hd] at htr'
    refine ⟨_, _, (he s' hp.symm).trans hrun, hran.trace, htr', ?_, ?_, ?_, ?_, ?_, ?_, ?_, ?_, fun k hk => ?_⟩
    · rw [State.exchange_mode c _ hl, State.exchange_mode c _ hl, beforeOf_mode_congr i hm]
    · rw [hran.lines, hran'.lines]
    · rw [hran.sr, hran'.sr, hd]
    · rw [hran.bitIdx, hran'.bitIdx]
    · rw [hran.byteIdx, hran'.byteIdx]
    · rw [hran.phase, hran'.phase]
    · rw [hran.fault, hran'.fault, hf, hf']
    · rw [hran.draws, hran'.draws, hd]
    · rw [hran.buf, hran'.buf]
      exact bufAfter_congr hd.symm _ _ _ (hk.imp_right (resp_long_of_length (padded_length _ hl)))

end Sys2Proof.Machine
end

section
/-! PROOFS. How a request is taken: what it names, and the refusal of one that names nothing (30_encoding.md R57, R70, R73, R75; 42_commands.md R100; 60_exceptions.md R151). -/

namespace Sys2Proof.Machine

open Safety

/-! ### One step on one request -/

theorem step_of_requested {s : State} {r : Request} {rest : List Request} {i : Instr} (hc : s.calls = r :: rest)
    (hi : requested s r = some i) : step s = exec i { s with calls := rest, ret := none } := by
  unfold step
  rw [hc]
  cases r with
  | reset => cases hi
  | call name ops => simp only [hi]; rfl
  | line text => simp only [hi]; rfl
  | encoded bytes => simp only [hi]; rfl

theorem step_of_not_requested {s : State} {r : Request} {rest : List Request} (hf : s.fault = 0)
    (hc : s.calls = r :: rest) (hr : r ≠ .reset) (hi : requested s r = none) :
    step s = .next { s with calls := rest, ret := none, fault := 2 } := by
  have href : (s.accept rest).refuse = .next { s with calls := rest, ret := none, fault := 2 } := by
    rw [State.refuse, State.guarded_ok (s.accept rest) _ hf, raise_of_zero (s := s.accept rest) hf]
    rfl
  rw [← href]
  unfold step
  rw [hc]
  cases r with
  | reset => exact absurd rfl hr
  | call name ops => simp only [hi]
  | line text => simp only [hi]
  | encoded bytes => simp only [hi]

/-- A request that gives a name and operands: a call, or a line of text that reads so. -/
def ReadsAs (r : Request) (name : String) (ops : List Nat) : Prop :=
  r = .call name ops ∨ ∃ text, r = .line text ∧ readLine text = some (name, ops)

theorem requested_of_readsAs {s : State} {r : Request} {name : String} {ops : List Nat}
    (h : ReadsAs r name ops) : requested s r = instrOfCall s.params s.mode name ops := by
  rcases h with rfl | ⟨text, rfl, ht⟩
  · rfl
  · simp only [requested, ht]

/-! ### The table of spellings (30_encoding.md R73, R75) -/

theorem callTable_names (b : Band) (ops : List Nat) : ((callTable b ops).map Prod.fst).Perm spellings := by
  rw [show (callTable b ops).map Prod.fst = (callTable .fm []).map Prod.fst from rfl]
  decide +kernel

theorem spellings_nodup : spellings.Nodup := by decide +kernel

/-- In a table whose keys are distinct, a key's lookup gives the entry it stands in. -/
theorem lookup_of_mem {α β : Type} [DecidableEq α] {l : List (α × β)} (hnd : (l.map Prod.fst).Nodup)
    {k : α} {v : β} (h : (k, v) ∈ l) : l.lookup k = some v := by
  obtain ⟨l₁, l₂, rfl⟩ := List.append_of_mem h
  refine List.lookup_eq_some_iff.mpr ⟨l₁, l₂, rfl, fun e he => ?_⟩
  rw [List.map_append, List.map_cons, List.nodup_append] at hnd
  obtain ⟨-, -, hdisj⟩ := hnd
  exact bne_iff_ne.mpr (hdisj e.1 (List.mem_map_of_mem he) k List.mem_cons_self).symm

theorem instrOfCall_of_mem {p : Params} {m : Mode} {name : String} {ops : List Nat} {r : Option Instr}
    (h : (name, r) ∈ callTable (resolveBand p m) ops) : instrOfCall p m name ops = r := by
  have hnd := (callTable_names (resolveBand p m) ops).nodup_iff.mpr spellings_nodup
  simp only [instrOfCall, lookup_of_mem hnd h]

theorem instrOfCall_of_not_spelling (p : Params) (m : Mode) {name : String} (ops : List Nat)
    (h : name ∉ spellings) : instrOfCall p m name ops = none := by
  have hnone : (callTable (resolveBand p m) ops).lookup name = none := by
    refine List.lookup_eq_none_iff.mpr fun e he => bne_iff_ne.mpr ?_
    rintro rfl
    exact h ((callTable_names _ ops).mem_iff.mp (List.mem_map_of_mem he))
  simp only [instrOfCall, hnone]

/-- Where the i-th of the 34 plain calls, then of the 6 mode-dependent ones, stands in `callTable`: the
mode-dependent ones come tenth. -/
def tablePlace (i : Nat) : Nat := if i < 9 then i else if i < 34 then i + 6 else i - 25

theorem plainCalls_mem_callTable (a b c : Nat) (bd : Band) :
    ∀ e ∈ plainCalls a b c, (e.1, some e.2.2) ∈ callTable bd e.2.1 := by
  have key : ∀ i : Fin 34, (callTable bd ((plainCalls a b c).get i).2.1)[tablePlace i]? =
      some (((plainCalls a b c).get i).1, some ((plainCalls a b c).get i).2.2) := by
    intro i
    fin_cases i <;> rfl
  intro e he
  obtain ⟨i, rfl⟩ := List.mem_iff_get.mp he
  exact List.mem_of_getElem? (key i)

theorem bandCalls_mem_callTable (a b c : Nat) (bd : Band) :
    ∀ e ∈ bandCalls a b c, (e.1, some (pick bd e.2.2.1 e.2.2.2)) ∈ callTable bd e.2.1 := by
  have key : ∀ i : Fin 6, (callTable bd ((bandCalls a b c).get i).2.1)[tablePlace (34 + i)]? =
      some (((bandCalls a b c).get i).1,
        some (pick bd ((bandCalls a b c).get i).2.2.1 ((bandCalls a b c).get i).2.2.2)) := by
    intro i
    cases bd <;> fin_cases i <;> rfl
  intro e he
  obtain ⟨i, rfl⟩ := List.mem_iff_get.mp he
  exact List.mem_of_getElem? (key i)

/-- A call with another number of operands than its spelling takes names nothing (log 12): for each number of
operands, the entries of the table that take another are `none`. -/
theorem arities_mem_callTable (bd : Band) (ops : List Nat) :
    ∀ e ∈ arities, ops.length ≠ e.2 → (e.1, none) ∈ callTable bd ops := by
  have key : ∀ i : Fin 40, ops.length ≠ (arities.get i).2 →
      (callTable bd ops)[tablePlace i]? = some ((arities.get i).1, none) := by
    intro i h
    match ops with
    | [] => fin_cases i <;> first | rfl | exact absurd rfl h
    | [_] => fin_cases i <;> first | rfl | exact absurd rfl h
    | [_, _] => fin_cases i <;> first | rfl | exact absurd rfl h
    | [_, _, _] => fin_cases i <;> first | rfl | exact absurd rfl h
    | _ :: _ :: _ :: _ :: _ => fin_cases i <;> rfl
  intro e he hne
  obtain ⟨i, rfl⟩ := List.mem_iff_get.mp he
  exact List.mem_of_getElem? (key i hne)

theorem instrOfCall_plain (p : Params) (m : Mode) (a b c : Nat) :
    ∀ e ∈ plainCalls a b c, instrOfCall p m e.1 e.2.1 = some e.2.2 := fun e he =>
  instrOfCall_of_mem (plainCalls_mem_callTable a b c _ e he)

/-! ### What a request runs -/

/-- Settles O38: the three kinds of step that read no name. -/
theorem stepRunsTheDecodedInstruction : Obligations.StepRunsTheDecodedInstruction := by
  refine ⟨fun s bytes rest i hc hd hi => step_of_requested hc ?_, fun _ _ _ => rfl, fun s hc hf => ?_⟩
  · simp only [requested, hd, commandOf, hi, if_true]
  · rw [step, hc]
    exact State.guarded_ok s _ hf

theorem step_of_readsAs {s : State} {r : Request} {rest : List Request} {name : String} {ops : List Nat}
    {i : Instr} (hc : s.calls = r :: rest) (hr : ReadsAs r name ops)
    (hi : instrOfCall s.params s.mode name ops = some i) : step s = exec i { s with calls := rest, ret := none } :=
  step_of_requested hc ((requested_of_readsAs hr).trans hi)

/-- Settles O39: a call and a line that reads as one name the same instruction, and the plain spellings name
theirs in every MODE. -/
theorem stepRunsTheCalledInstruction : Obligations.StepRunsTheCalledInstruction := by
  refine ⟨fun s text name ops rest i hi => ?_, fun a b c s rest e he => ?_⟩
  · exact ⟨fun hc => step_of_readsAs hc (.inl rfl) hi,
      fun hc ht => step_of_readsAs hc (.inr ⟨text, rfl, ht⟩) hi⟩
  · have hi := instrOfCall_plain s.params s.mode a b c e he
    exact ⟨fun hc => step_of_readsAs hc (.inl rfl) hi,
      fun text hc ht => step_of_readsAs hc (.inr ⟨text, rfl, ht⟩) hi⟩

/-! ### The six mode-dependent mnemonics -/

theorem bandCalls_variants (a b c : Nat) : ∀ e ∈ bandCalls a b c,
    neededBand e.2.2.1 = some .fm ∧ e.2.2.2.wellFormed = e.2.2.1.wellFormed := by
  simp [bandCalls, neededBand, Instr.wellFormed]

/-- A mode-dependent mnemonic runs the variant of its band. -/
theorem step_bandCall {a b c : Nat} {s : State} {r : Request} {rest : List Request}
    {e : String × List Nat × Instr × Instr} (he : e ∈ bandCalls a b c) (hc : s.calls = r :: rest)
    (hr : ReadsAs r e.1 e.2.1) :
    step s = exec (pick (s.band.getD .fm) e.2.2.1 e.2.2.2) { s with calls := rest, ret := none } :=
  step_of_readsAs hc hr (instrOfCall_of_mem (bandCalls_mem_callTable a b c _ e he))

/-- Settles O40: the band MODE selects picks the variant; admission then asks for the widths and for MODE. -/
theorem callerMnemonicsResolveByMode : Obligations.CallerMnemonicsResolveByMode := by
  intro a b c s rest e he hcalls
  obtain ⟨r, hc, hr⟩ : ∃ r, s.calls = r :: rest ∧ ReadsAs r e.1 e.2.1 := by
    rcases hcalls with hc | ⟨text, hc, ht⟩
    · exact ⟨_, hc, .inl rfl⟩
    · exact ⟨_, hc, .inr ⟨text, rfl, ht⟩⟩
  obtain ⟨hband, hwf⟩ := bandCalls_variants a b c e he
  have hstep := step_bandCall he hc hr
  refine ⟨fun hm => ?_, fun hm => ?_, fun hm hf hw => ?_, fun hf hw => ?_⟩
  · rw [hstep, band_fm s hm]; rfl
  · rw [hstep, band_am s hm]; rfl
  · rw [hstep, band_none s hm]
    exact modeDependentCommandsFaultOutsideFmAndAm e.2.2.1 { s with calls := rest, ret := none } hf hm
      (by rw [hband]; rfl) hw
  · rw [hstep]
    refine operandsTooWideAreRefusedFirst _ { s with calls := rest, ret := none } hf ?_
    cases s.band.getD .fm
    · exact hw
    · exact hwf.trans hw

/-! ### What names nothing -/

theorem instrOfCall_of_length_ne (p : Params) (m : Mode) {name : String} {ops : List Nat}
    (h : ∃ e ∈ arities, e.1 = name ∧ ops.length ≠ e.2) : instrOfCall p m name ops = none := by
  obtain ⟨e, he, rfl, hne⟩ := h
  exact instrOfCall_of_mem (arities_mem_callTable _ ops e he hne)

/-- Settles O41: each of these requests names no instruction. -/
theorem requestsThatNameNothingAreRefused : Obligations.RequestsThatNameNothingAreRefused := by
  intro s rest hf
  refine ⟨fun name ops hn hc => ?_, fun ops e he hne hc => ?_, fun text ht hc => ?_,
    fun text name ops ht hbad hc => ?_, fun bytes err hd hc => ?_, fun bytes i hd hi hc => ?_⟩ <;>
    refine step_of_not_requested hf hc (by simp) ?_
  · exact instrOfCall_of_not_spelling _ _ ops hn
  · exact instrOfCall_of_length_ne _ _ ⟨e, he, rfl, hne⟩
  · simp only [requested, ht]
  · rw [requested_of_readsAs (.inr ⟨text, rfl, ht⟩)]
    rcases hbad with hn | hne
    · exact instrOfCall_of_not_spelling _ _ ops hn
    · exact instrOfCall_of_length_ne _ _ hne
  · simp only [requested, hd, commandOf]
  · simp only [requested, hd, commandOf, hi]
    rfl

end Sys2Proof.Machine
end
